-- ==== Sys2Proof/Word.lean ====
section
/-! DEFINITION. The word types of the block and their plainest vocabulary (00_scope.md R6, R9). -/

namespace Sys2Proof

/-- A memory word, a register and an instruction: 16 bits, unsigned, arithmetic modulo 2^16 (R6 `WORD_WIDTH`, R9). -/
abbrev Word := BitVec 16

/-- A byte carried by the input and output ports (R11). -/
abbrev Byte := BitVec 8

/-- The number of a general register, R0 to R7; every value names a register (R20, R73). -/
abbrev RegNum := Fin 8

end Sys2Proof
end

