-- ==== Sys2Proof/Syntax.lean ====
section
/-! DEFINITION. The instructions, one constructor per row of spec/opcode_table.json (30_encoding.md R72 to R78). -/

namespace Sys2Proof

/-- The sixteen operations that bits [15:12] select (R71, R72). -/
inductive Opcode where
  | br | add | ld | st | jsr | and | ldr | str | rti | not | ldi | sti | jmp | res | lea | trap
  deriving DecidableEq, Repr

/-- The instructions with their fields (R73). Bits no field names are dropped (R75), but for RTI and RES, whose whole
word is recorded in FatalInfo (44_reserved.md R202). -/
inductive Instr where
  /-- ADD, register form (R101). -/
  | addReg (dr sr1 sr2 : RegNum)
  /-- ADD, immediate form (R102). -/
  | addImm (dr sr1 : RegNum) (imm5 : BitVec 5)
  /-- AND, register form (R103). -/
  | andReg (dr sr1 sr2 : RegNum)
  /-- AND, immediate form (R104). -/
  | andImm (dr sr1 : RegNum) (imm5 : BitVec 5)
  /-- NOT (R105). -/
  | not (dr sr : RegNum)
  /-- BR, with the cond bits n = [11], z = [10], p = [9] (R120). -/
  | br (n z p : Bool) (off9 : BitVec 9)
  /-- JMP (R121); RET is its form with base 7. -/
  | jmp (base : RegNum)
  /-- JSR, PC-relative (R122). -/
  | jsr (off11 : BitVec 11)
  /-- JSRR, through a register (R123). -/
  | jsrr (base : RegNum)
  /-- LD (R140). -/
  | ld (dr : RegNum) (off9 : BitVec 9)
  /-- LDI (R141). -/
  | ldi (dr : RegNum) (off9 : BitVec 9)
  /-- LDR (R142). -/
  | ldr (dr base : RegNum) (off6 : BitVec 6)
  /-- LEA (R143). -/
  | lea (dr : RegNum) (off9 : BitVec 9)
  /-- ST (R144). -/
  | st (sr : RegNum) (off9 : BitVec 9)
  /-- STI (R145). -/
  | sti (sr : RegNum) (off9 : BitVec 9)
  /-- STR (R146). -/
  | str (sr base : RegNum) (off6 : BitVec 6)
  /-- TRAP (R170). The decoder gives this constructor for the vectors that select no service; a service's
  vector decodes to the service's own constructor below. -/
  | trap (vector : Byte)
  /-- RTI, with its bits [11:0] (R200). -/
  | rti (low : BitVec 12)
  /-- RES, with its bits [11:0] (R201). -/
  | res (low : BitVec 12)
  /-- TRAP x20 (R171). -/
  | getc
  /-- TRAP x21 (R172). -/
  | out
  /-- TRAP x22 (R173). -/
  | puts
  /-- TRAP x23 (R174). -/
  | in_
  /-- TRAP x24 (R175). -/
  | putsp
  /-- TRAP x25 (R176). -/
  | halt
  deriving DecidableEq, Repr

end Sys2Proof
end

