-- ==== Sys2Proof/WellFormed.lean ====
section
/-! DEFINITION. When a term of `Instr` is an instruction the decoder can give. The field types already bound every
register number, immediate and offset (R77: no field value is illegal), so one check is left: a TRAP word whose vector
selects a service is written with the service's constructor (R78). -/

namespace Sys2Proof

/-- The six vectors that select a service, 0x20 to 0x25 (R78). -/
def isServiceVector (v : Byte) : Bool :=
  0x20#8 ≤ v && v ≤ 0x25#8

/-- Well-formed instructions: each word of the hardware is exactly one of them. -/
def Instr.wellFormed : Instr → Bool
  | .trap v => !isServiceVector v
  | .addReg _ _ _ => true
  | .addImm _ _ _ => true
  | .andReg _ _ _ => true
  | .andImm _ _ _ => true
  | .not _ _ => true
  | .br _ _ _ _ => true
  | .jmp _ => true
  | .jsr _ => true
  | .jsrr _ => true
  | .ld _ _ => true
  | .ldi _ _ => true
  | .ldr _ _ _ => true
  | .lea _ _ => true
  | .st _ _ => true
  | .sti _ _ => true
  | .str _ _ _ => true
  | .rti _ => true
  | .res _ => true
  | .getc => true
  | .out => true
  | .puts => true
  | .in_ => true
  | .putsp => true
  | .halt => true

end Sys2Proof
end

