-- ==== Sys2Proof/Decode.lean ====
section
/-! DEFINITION. The decoder and the encoder, from 30_encoding.md R71 to R78. Decoding is total: every 16-bit word is
exactly one instruction (R77), so nothing is rejected. -/

namespace Sys2Proof

/-- The opcode numbers of R72, the one table of them (D1: PRESUMED by the spec, log 1). -/
def Opcode.code : Opcode → BitVec 4
  | .br => 0x0#4
  | .add => 0x1#4
  | .ld => 0x2#4
  | .st => 0x3#4
  | .jsr => 0x4#4
  | .and => 0x5#4
  | .ldr => 0x6#4
  | .str => 0x7#4
  | .rti => 0x8#4
  | .not => 0x9#4
  | .ldi => 0xA#4
  | .sti => 0xB#4
  | .jmp => 0xC#4
  | .res => 0xD#4
  | .lea => 0xE#4
  | .trap => 0xF#4

/-- The sixteen operations. -/
def Opcode.all : List Opcode :=
  [.br, .add, .ld, .st, .jsr, .and, .ldr, .str, .rti, .not, .ldi, .sti, .jmp, .res, .lea, .trap]

/-- The operation whose number `b` is: R72's table read backwards. All sixteen numbers are in the table. -/
def Opcode.ofCode (b : BitVec 4) : Opcode :=
  (Opcode.all.find? fun op => op.code == b).getD .res

/-- The opcode field, bits [15:12] (R71). -/
def opcodeField (w : Word) : BitVec 4 := w.extractLsb' 12 4

/-- A register field of three bits, its lowest bit at `lo` (R73). -/
def regField (w : Word) (lo : Nat) : RegNum := (w.extractLsb' lo 3).toFin

/-- imm5, bits [4:0] (R73). -/
def imm5Field (w : Word) : BitVec 5 := w.extractLsb' 0 5

/-- offset6, bits [5:0] (R73). -/
def offset6Field (w : Word) : BitVec 6 := w.extractLsb' 0 6

/-- PCoffset9, bits [8:0] (R73). -/
def pcOffset9Field (w : Word) : BitVec 9 := w.extractLsb' 0 9

/-- PCoffset11, bits [10:0] (R73). -/
def pcOffset11Field (w : Word) : BitVec 11 := w.extractLsb' 0 11

/-- trap-vector, bits [7:0] (R73). -/
def trapVectorField (w : Word) : Byte := w.extractLsb' 0 8

/-- A TRAP word by its vector (R78): the six services, and every other vector. -/
def decodeTrap (v : Byte) : Instr :=
  if v = 0x20#8 then .getc
  else if v = 0x21#8 then .out
  else if v = 0x22#8 then .puts
  else if v = 0x23#8 then .in_
  else if v = 0x24#8 then .putsp
  else if v = 0x25#8 then .halt
  else .trap v

/-- Decode one instruction word (R72, R73, R76): bit 5 picks the ADD or AND form, bit 11 picks JSR or JSRR (R77). -/
def decode (w : Word) : Instr :=
  match Opcode.ofCode (opcodeField w) with
  | .br => .br (w.getLsbD 11) (w.getLsbD 10) (w.getLsbD 9) (pcOffset9Field w)
  | .add =>
    if w.getLsbD 5 then .addImm (regField w 9) (regField w 6) (imm5Field w)
    else .addReg (regField w 9) (regField w 6) (regField w 0)
  | .ld => .ld (regField w 9) (pcOffset9Field w)
  | .st => .st (regField w 9) (pcOffset9Field w)
  | .jsr => if w.getLsbD 11 then .jsr (pcOffset11Field w) else .jsrr (regField w 6)
  | .and =>
    if w.getLsbD 5 then .andImm (regField w 9) (regField w 6) (imm5Field w)
    else .andReg (regField w 9) (regField w 6) (regField w 0)
  | .ldr => .ldr (regField w 9) (regField w 6) (offset6Field w)
  | .str => .str (regField w 9) (regField w 6) (offset6Field w)
  | .rti => .rti (w.extractLsb' 0 12)
  | .not => .not (regField w 9) (regField w 6)
  | .ldi => .ldi (regField w 9) (pcOffset9Field w)
  | .sti => .sti (regField w 9) (pcOffset9Field w)
  | .jmp => .jmp (regField w 6)
  | .res => .res (w.extractLsb' 0 12)
  | .lea => .lea (regField w 9) (pcOffset9Field w)
  | .trap => decodeTrap (trapVectorField w)

/-- The three bits of a register field. -/
def regBits (r : RegNum) : BitVec 3 := BitVec.ofFin r

/-- The format op | 3 bits | 3 bits | 6 bits of R76. -/
def format336 (op : Opcode) (a b : BitVec 3) (c : BitVec 6) : Word := op.code ++ a ++ b ++ c

/-- The format op | 3 bits | 9 bits of R76. -/
def format39 (op : Opcode) (a : BitVec 3) (c : BitVec 9) : Word := op.code ++ a ++ c

/-- The format op | 12 bits of R76. -/
def format12 (op : Opcode) (c : BitVec 12) : Word := op.code ++ c

/-- The word of a TRAP with vector `v`; bits [11:8], which are ignored (R75), are written 0 (log 4). -/
def trapWord (v : Byte) : Word := format12 .trap (0#4 ++ v)

/-- The word of RTI with the given bits [11:0] (R76). -/
def rtiWord (low : BitVec 12) : Word := format12 .rti low

/-- The word of RES with the given bits [11:0] (R76). -/
def resWord (low : BitVec 12) : Word := format12 .res low

/-- The word of an instruction, in the formats of R76. Ignored bits are written as 93_implementation_defined.md K7 has
them: NOT [5:0] all ones, every other ignored bit 0 (log 4). -/
def encode : Instr → Word
  | .addReg dr sr1 sr2 => format336 .add (regBits dr) (regBits sr1) (0#1 ++ 0#2 ++ regBits sr2)
  | .addImm dr sr1 imm5 => format336 .add (regBits dr) (regBits sr1) (1#1 ++ imm5)
  | .andReg dr sr1 sr2 => format336 .and (regBits dr) (regBits sr1) (0#1 ++ 0#2 ++ regBits sr2)
  | .andImm dr sr1 imm5 => format336 .and (regBits dr) (regBits sr1) (1#1 ++ imm5)
  | .not dr sr => format336 .not (regBits dr) (regBits sr) 0b111111#6
  | .br n z p off9 => format39 .br (BitVec.ofBool n ++ BitVec.ofBool z ++ BitVec.ofBool p) off9
  | .jmp base => format336 .jmp 0#3 (regBits base) 0#6
  | .jsr off11 => format12 .jsr (1#1 ++ off11)
  | .jsrr base => format336 .jsr (0#1 ++ 0#2) (regBits base) 0#6
  | .ld dr off9 => format39 .ld (regBits dr) off9
  | .ldi dr off9 => format39 .ldi (regBits dr) off9
  | .ldr dr base off6 => format336 .ldr (regBits dr) (regBits base) off6
  | .lea dr off9 => format39 .lea (regBits dr) off9
  | .st sr off9 => format39 .st (regBits sr) off9
  | .sti sr off9 => format39 .sti (regBits sr) off9
  | .str sr base off6 => format336 .str (regBits sr) (regBits base) off6
  | .trap v => trapWord v
  | .rti low => rtiWord low
  | .res low => resWord low
  | .getc => trapWord 0x20#8
  | .out => trapWord 0x21#8
  | .puts => trapWord 0x22#8
  | .in_ => trapWord 0x23#8
  | .putsp => trapWord 0x24#8
  | .halt => trapWord 0x25#8

/-- The decoder on an instruction given as spec/opcode_table.json numbers its bits: one word, bit 0 the least
significant. A number that does not fit one word is no instruction of this hardware (R70). -/
def decodeTableWord (nbits w : Nat) : Option Instr :=
  if nbits ≤ 16 ∧ w < 2 ^ 16 then some (decode (BitVec.ofNat 16 w)) else none

end Sys2Proof
end

