-- ==== Sys2Proof/Config.lean ====
section
/-! DEFINITION. The implementation parameters of 00_scope.md R6 and the free values the spec leaves to the host.
Nothing in Lean can evaluate an `opaque` constant, so a claim about one holds for every value of it. -/

namespace Sys2Proof

/-- `UNKNOWN_TRAP_POLICY` (R6, R177): what the model does with a trap vector outside 0x20 to 0x25. -/
inductive UnknownTrapPolicy where
  /-- The spec's default: nothing beyond the R7 write. -/
  | noop
  /-- The safe alternative: the model refuses the program. -/
  | refuse
  deriving DecidableEq, Repr

/-- `HALT_NOTICE` (R6, OPEN, D6): the bytes HALT writes. -/
opaque Config.haltNotice : List Byte

/-- `IN_PROMPT` (R6, OPEN, D7): the bytes IN writes before it reads. -/
opaque Config.inPrompt : List Byte

/-- `EOF_WORD` (R6, OPEN, D8): the word a blocking read gives at end of input. -/
opaque Config.eofWord : Word

/-- `BP_DIAGNOSTIC` (R6, OPEN, D22): the bytes written at a breakpoint, from the address and the instruction word. -/
opaque Config.bpDiagnostic : Word → Word → List Byte

/-- `FIRST_IMAGE_FAIL_EXIT` (R6, OPEN, D27): the host's exit status when the first image fails to load. -/
opaque Config.firstImageFailExit : Int

/-- The host's answer to the n-th poll for which no answer stands in the state: `none`, or a character
(R44 "a free input of the step", D10, 93_implementation_defined.md "any value"). -/
opaque Config.freePoll : Nat → Option Byte

/-- The parameters of R6 that a model takes as arguments and that are plain data. They stand in the state,
so that a claim about every state is a claim about every choice of them; no step writes them. -/
structure Params where
  /-- `KBSR_ADDR`: a read at this address polls the keyboard (R43). -/
  kbsrAddr : Word
  /-- `KBDR_ADDR`: the word in which the poll leaves the character (R44). -/
  kbdrAddr : Word
  /-- `HALT_NOTICE`. -/
  haltNotice : List Byte
  /-- `IN_PROMPT`. -/
  inPrompt : List Byte
  /-- `EOF_WORD`. -/
  eofWord : Word
  /-- `UNKNOWN_TRAP_POLICY`. -/
  unknownTrapPolicy : UnknownTrapPolicy
  deriving DecidableEq, Repr

/-- R6's defaults: KBSR_ADDR 0xFE00 and KBDR_ADDR 0xFE02 (D3: PRESUMED by the spec), UNKNOWN_TRAP_POLICY noop (D5),
and the OPEN rows at their opaque constants. -/
def Params.default : Params where
  kbsrAddr := 0xFE00#16
  kbdrAddr := 0xFE02#16
  haltNotice := Config.haltNotice
  inPrompt := Config.inPrompt
  eofWord := Config.eofWord
  unknownTrapPolicy := .noop

end Sys2Proof
end

