-- ==== Sys2Proof/Machine/State.lean ====
section
/-! DEFINITION. The state of the block as plain data (10_state.md R20 to R32), the model's own fields for the ports
(00_scope.md R11), the reasons a step can stop, and the state after reset (70_reset_and_hazards.md R240). -/

namespace Sys2Proof.Machine

/-- COND, "exactly one of three values" (10_state.md R25). -/
inductive Cond where
  | negative | zero | positive
  deriving DecidableEq, Repr

/-- RunState (10_state.md R29). HALTED, FATAL and CANCELLED are terminal (00_scope.md R12). -/
inductive RunState where
  | running | halted | fatal | cancelled
  deriving DecidableEq, Repr

/-- The two cause codes, FATAL_RTI and FATAL_RES (60_exceptions.md R210). -/
inductive FatalCause where
  | rti | res
  deriving DecidableEq, Repr

/-- FatalInfo (10_state.md R30): the opcode, the address the instruction was fetched from, the instruction word. -/
structure FatalInfo where
  cause : FatalCause
  addr : Word
  word : Word
  deriving DecidableEq, Repr

/-- Where the block stands in its step. The model's own: the spec's holds (00_scope.md R12, 60_exceptions.md R222)
are states in which the step waits for the host. -/
inductive Phase where
  /-- Before a fetch (or while an instruction executes). -/
  | boundary
  /-- GETC holds on InRead (43_trap.md R171). -/
  | getcRead
  /-- IN holds on InRead, its prompt written (43_trap.md R174). -/
  | inRead
  /-- The breakpoint check holds on bp_confirm (60_exceptions.md R219): the fetch address and the fetched word. -/
  | bpConfirm (addr word : Word)
  /-- PUTS has written one whole lap of a memory with no zero word and goes on at this address (R173, R222). -/
  | puts (addr : Word)
  /-- PUTSP, likewise (R175, R222). -/
  | putsp (addr : Word)
  deriving DecidableEq, Repr

/-- The host's answer to a blocking read (00_scope.md R11). -/
inductive ReadAnswer where
  | char (c : Byte)
  | eof
  deriving DecidableEq, Repr

/-- Memory: the words that are not 0x0000, as (address, word) pairs with strictly rising addresses (20_memory.md R40;
the smallest addressable unit is the word, so a cell holds a word: log 6). -/
abbrev Memory := List (Nat × Word)

/-- The whole state. -/
structure State where
  /-- R0 to R7 (R20). -/
  regs : Vector Word 8
  /-- PC (R23). -/
  pc : Word
  /-- COND (R25). -/
  cond : Cond
  /-- Mem (R28). -/
  mem : Memory
  /-- RunState (R29). -/
  runState : RunState
  /-- FatalInfo, empty until RunState is FATAL (R30). -/
  fatalInfo : Option FatalInfo
  /-- DebugEnabled (R31). -/
  debugEnabled : Bool
  /-- Breakpoints (R31). -/
  breakpoints : List Word
  /-- The model's own: where the block stands in its step (log 12, 13). -/
  phase : Phase
  /-- The model's own: the bytes given to OutWrite, oldest first (R225, log 26). -/
  output : List Byte
  /-- The model's own: the `bp_hit(addr, word)` signals given to the host, oldest first (R11, log 31). -/
  bpHits : List (Word × Word)
  /-- The model's own: the host's next answers to InPoll, oldest first (R11, log 8). -/
  polls : List (Option Byte)
  /-- The model's own: how many free poll answers have been drawn (log 8). -/
  pollDraw : Nat
  /-- The model's own: the host's next answers to InRead, oldest first (R11, log 9). -/
  reads : List ReadAnswer
  /-- The model's own: how many bp_confirm signals the host has ready (R219, log 10). -/
  confirms : Nat
  /-- The model's own: after how many further allowed points the host's cancel is present (R213, log 11). -/
  cancelAfter : Option Nat
  /-- The parameters of 00_scope.md R6. -/
  params : Params
  deriving DecidableEq, Repr

/-- Why the machine takes no step. -/
inductive Fault where
  /-- Raised by `step` alone, in a terminal state: "no step follows" HALTED, FATAL or CANCELLED (00_scope.md R12, D23).
  Safe: the hardware takes no step there either. -/
  | terminal (r : RunState)
  deriving DecidableEq, Repr

/-- Why the model gives no meaning. -/
inductive Refusal where
  /-- Raised by an arm of `exec` whose instruction has no meaning yet. Safe. -/
  | notModelled (mnemonic : String)
  /-- Raised by TRAP with an unknown vector when UNKNOWN_TRAP_POLICY is `refuse` (00_scope.md R6, 43_trap.md R177).
  Safe: the model stops where the spec's default goes on. -/
  | unknownTrap (vector : Byte)
  deriving DecidableEq, Repr

/-- What one step or one instruction answers. -/
abbrev Result := Host.Outcome State Fault Refusal

/-- START_PC (00_scope.md R6, 70_reset_and_hazards.md R241). -/
def startPc : Word := 0x3000#16

/-- The block right after reset, no image loaded (70_reset_and_hazards.md R240). DebugEnabled is "as configured"
(R31): DESIGN CHOICE false (log 22). The model's own fields are empty: DESIGN CHOICE (logs 8 to 12, 26, 31). -/
def State.reset : State where
  regs := Vector.replicate 8 0x0000#16
  pc := startPc
  cond := .zero
  mem := []
  runState := .running
  fatalInfo := none
  debugEnabled := false
  breakpoints := []
  phase := .boundary
  output := []
  bpHits := []
  polls := []
  pollDraw := 0
  reads := []
  confirms := 0
  cancelAfter := none
  params := Params.default

end Sys2Proof.Machine
end

