-- ==== Sys2Proof/Machine/Memory.lean ====
section
/-! DEFINITION. The memory array as a sparse list in one canonical form (20_memory.md R40, R41, R57, R58). -/

namespace Sys2Proof.Machine

/-- What an unlisted address reads as: "every word of memory is 0x0000" at reset (R41, D14). -/
def unlistedWord : Word := 0x0000#16

/-- The word at an address. -/
def Memory.read : Memory → Nat → Word
  | [], _ => unlistedWord
  | (k, v) :: m, a => if k = a then v else Memory.read m a

/-- List a word at an address, in its place by address, over what was listed there. -/
def Memory.insert : Memory → Nat → Word → Memory
  | [], a, v => [(a, v)]
  | (k, u) :: m, a, v =>
    if a < k then (a, v) :: (k, u) :: m
    else if a = k then (a, v) :: m
    else (k, u) :: Memory.insert m a v

/-- Store a word at an address, keeping the canonical form: what an unlisted address reads as is not listed. -/
def Memory.write (m : Memory) (a : Nat) (v : Word) : Memory :=
  if v = unlistedWord then m.filter fun c => c.1 != a else Memory.insert m a v

/-- The canonical form: addresses strictly rising and inside the 16-bit address space, no entry equal to what an
unlisted address reads as. -/
abbrev Memory.wf (m : Memory) : Prop :=
  m.Pairwise (fun c d => c.1 < d.1) ∧ ∀ c ∈ m, c.1 < 2 ^ 16 ∧ c.2 ≠ unlistedWord

end Sys2Proof.Machine
end

