-- ==== Sys2Proof/Machine/Operands.lean ====
section
/-! DEFINITION. The encoding utilities (00_scope.md R8) and the operand values built from instruction fields
(30_encoding.md R74). -/

namespace Sys2Proof.Machine

/-- `sext_N(v)`: the low N bits of `v` as a two's-complement number, on 16 bits. R8 leaves it undefined for N outside
[1, 16]; there it has no value here (93_implementation_defined.md: "should refuse other N"). -/
def sext (n : Nat) (v : Word) : Option Word :=
  if 1 ≤ n ∧ n ≤ 16 then some ((v.setWidth n).signExtend 16) else none

/-- `zext_N(v)`: the low N bits of `v`, the rest zero (R8). -/
def zext (n : Nat) (v : Word) : Word :=
  (v.setWidth n).setWidth 16

/-- imm5 as an operand, -16 to +15 (R74). -/
def sext5 (v : BitVec 5) : Word := v.signExtend 16

/-- offset6 as an operand, -32 to +31 (R74). -/
def sext6 (v : BitVec 6) : Word := v.signExtend 16

/-- PCoffset9 as an operand, -256 to +255 (R74). -/
def sext9 (v : BitVec 9) : Word := v.signExtend 16

/-- PCoffset11 as an operand, -1024 to +1023 (R74). -/
def sext11 (v : BitVec 11) : Word := v.signExtend 16

/-- `zext_8(c)`: a character as a 16-bit value (D8). -/
def zext8 (c : Byte) : Word := c.setWidth 16

/-- Bits [7:0] of a word, the character OUT and PUTS write (43_trap.md R172, R173). -/
def lowByte (w : Word) : Byte := w.extractLsb' 0 8

/-- Bits [15:8] of a word, the second character of a PUTSP word (43_trap.md R175). -/
def highByte (w : Word) : Byte := w.extractLsb' 8 8

/-- A general register's value (10_state.md R20). -/
def State.reg (s : State) (r : RegNum) : Word := s.regs[r]

/-- The word in the storage array at an address, without the keyboard's side effect: `Mem[a]` of 00_scope.md R10. -/
def State.word (s : State) (a : Word) : Word := s.mem.read a.toNat

/-- The PC-relative address, from the incremented PC (42_loadstore.md R147). -/
def State.pcRel9 (s : State) (off9 : BitVec 9) : Word := s.pc + sext9 off9

/-- The PC-relative target of JSR (41_control.md R122). -/
def State.pcRel11 (s : State) (off11 : BitVec 11) : Word := s.pc + sext11 off11

/-- The base + offset address (42_loadstore.md R147). -/
def State.baseOff (s : State) (base : RegNum) (off6 : BitVec 6) : Word := s.reg base + sext6 off6

end Sys2Proof.Machine
end

