-- ==== Sys2Proof/Machine/Flags.lean ====
section
/-! DEFINITION. The flag logic (40_operate.md R100) and COND's bits (10_state.md R25). -/

namespace Sys2Proof.Machine

/-- COND's encoding: bit 2 lines up with n, bit 1 with z, bit 0 with p (R25, D2: PRESUMED by the spec, log 2). -/
def Cond.bits : Cond → BitVec 3
  | .negative => 0b100#3
  | .zero => 0b010#3
  | .positive => 0b001#3

/-- COND for a value: ZERO if it is 0, NEGATIVE if its bit 15 is set, else POSITIVE (R100). -/
def condOf (v : Word) : Cond :=
  if v = 0x0000#16 then .zero
  else if v.getLsbD 15 then .negative
  else .positive

/-- `update_flags(r)`: COND from the value just written to register `r` (R100). -/
def State.updateFlags (s : State) (r : RegNum) : State :=
  { s with cond := condOf (s.reg r) }

/-- BR's test: `(instr[11:9] & COND) != 0` (41_control.md R120). -/
def branchTaken (n z p : Bool) (c : Cond) : Bool :=
  ((BitVec.ofBool n ++ BitVec.ofBool z ++ BitVec.ofBool p) &&& c.bits) != 0b000#3

end Sys2Proof.Machine
end

