-- ==== Sys2Proof/Machine/Ports.lean ====
section
/-! DEFINITION. The port transactions (00_scope.md R11): InPoll, InRead, OutWrite, OutFlush, cancel, bp_confirm, and
the status outputs. The host's answers are taken from the lists in the state (log 8 to 11). -/

namespace Sys2Proof.Machine

/-- `InPoll()`: the host's next answer, or a free draw where the state holds none (R11, D10, log 8). -/
def inPoll (s : State) : Option Byte × State :=
  match s.polls with
  | r :: rs => (r, { s with polls := rs })
  | [] => (Config.freePoll s.pollDraw, { s with pollDraw := s.pollDraw + 1 })

/-- `OutWrite(b)`: append a byte to the output stream (R11). -/
def outWrite (b : Byte) (s : State) : State :=
  { s with output := s.output ++ [b] }

/-- `OutFlush()`: no effect in the model (D21). -/
def outFlush (s : State) : State := s

/-- `for b in bs: OutWrite(b)`. -/
def outBytes (bs : List Byte) (s : State) : State :=
  { s with output := s.output ++ bs }

/-- `bp_hit(addr, word)`: signal a breakpoint hit to the host (R11, log 31). -/
def bpHit (a w : Word) (s : State) : State :=
  { s with bpHits := s.bpHits ++ [(a, w)] }

/-- A point at which the host's cancel may arrive (60_exceptions.md R213): with a cancel present, the run ends here,
`RunState <- CANCELLED`, and nothing more is written; else it goes on. -/
def atCancelPoint {α : Type} (stop go : State → α) (s : State) : α :=
  match s.cancelAfter with
  | none => go s
  | some 0 => stop { s with runState := .cancelled, cancelAfter := none }
  | some (n + 1) => go { s with cancelAfter := some n }

/-- Wait on `InRead()`: a cancel point, then the host's answer if there is one, else hold in phase `ph` (R213, R222). -/
def awaitRead (ph : Phase) (finish : ReadAnswer → State → State) (s : State) : State :=
  atCancelPoint id (fun s =>
    match s.reads with
    | [] => { s with phase := ph }
    | r :: rs => finish r { s with reads := rs, phase := .boundary }) s

/-- Output bytes with a cancel point before each: the rest of a string after its first byte (R213). -/
def writeRest (finish : State → State) : List Byte → State → State
  | [], s => finish s
  | b :: bs, s => atCancelPoint id (fun s => writeRest finish bs (outWrite b s)) s

/-- Output bytes with a cancel point between any two of them (R213: "between two output bytes of a PUTS or PUTSP"). -/
def writeString (finish : State → State) : List Byte → State → State
  | [], s => finish s
  | b :: bs, s => writeRest finish bs (outWrite b s)

/-- The status output `halted` (R11). -/
def State.haltedPort (s : State) : Bool := s.runState == .halted

/-- The status output `fatal(info)` (R11). -/
def State.fatalPort (s : State) : Option FatalInfo :=
  if s.runState = .fatal then s.fatalInfo else none

/-- What the block holds on at bp_confirm: the last `bp_hit(addr, word)` signalled, still unconfirmed (R11, R219). -/
def State.bpHitPort (s : State) : Option (Word × Word) :=
  match s.runState, s.phase with
  | .running, .bpConfirm a w => some (a, w)
  | _, _ => none

end Sys2Proof.Machine
end

