-- ==== Sys2Proof/Machine/Ops.lean ====
section
/-! DEFINITION. The named operations over registers and memory (00_scope.md R10, 20_memory.md R43 to R46), entering
TRAP and the fatal outcome. -/

namespace Sys2Proof.Machine

/-- `R[r] <- v` (R10). No register is hardwired (10_state.md R20). -/
def State.setReg (s : State) (r : RegNum) (v : Word) : State :=
  { s with regs := s.regs.set r v }

/-- `pc <- target` (R10). -/
def State.setPc (s : State) (target : Word) : State :=
  { s with pc := target }

/-- `MemWrite(addr, 1, v)`: a plain store at every address, the keyboard words included (20_memory.md R46). -/
def State.memWrite (s : State) (a v : Word) : State :=
  { s with mem := s.mem.write a.toNat v }

/-- What a poll's answer does to memory: the status word, and the data word when a character came (R44). -/
def State.pollResult (s : State) : Option Byte → State
  | some c => (s.memWrite s.params.kbsrAddr 0x8000#16).memWrite s.params.kbdrAddr (zext8 c)
  | none => s.memWrite s.params.kbsrAddr 0x0000#16

/-- `KeyboardPoll()` (R44): ask the host once, without waiting. -/
def keyboardPoll (s : State) : State :=
  let r := inPoll s
  r.2.pollResult r.1

/-- The side effect of a read at `a`: a poll if `a` is KBSR_ADDR, which comes first (R43). -/
def pollIfStatus (a : Word) (s : State) : State :=
  if a = s.params.kbsrAddr then keyboardPoll s else s

/-- `MemRead(addr, 1)` (R43): the word, and the state after the poll. -/
def memRead (a : Word) (s : State) : Word × State :=
  let s := pollIfStatus a s
  (s.word a, s)

/-- `R[r] <- v; update_flags(r)`: how every instruction that defines a result ends (40_operate.md R100). -/
def State.setResult (s : State) (r : RegNum) (v : Word) : State :=
  (s.setReg r v).updateFlags r

/-- The link register (10_state.md R21). -/
def linkReg : RegNum := 7

/-- `R[7] <- PC`: the link of JSR, JSRR and TRAP (41_control.md R122, R123, 43_trap.md R170). -/
def State.link (s : State) : State :=
  s.setReg linkReg s.pc

/-- Entering the block's only trap (60_exceptions.md R211): it saves the return address in R7, and nothing else: no
mode, mask, stack or vector table. There is no return from it; the service ends and the next fetch is at PC (R212). -/
def enterTrap (s : State) : State := s.link

/-- `raise Fatal(info)` (44_reserved.md R202): FatalInfo and RunState, and nothing else. -/
def raiseFatal (info : FatalInfo) (s : State) : State :=
  { s with fatalInfo := some info, runState := .fatal }

end Sys2Proof.Machine
end

