-- ==== Sys2Proof/Machine/Trap.lean ====
section
/-! DEFINITION. TRAP and the trap dispatcher's six services (43_trap.md R170 to R179). The block carries the service out
itself; PC is not written. -/

namespace Sys2Proof.Machine

/-- The value a read character gives: the byte zero-extended, or EOF_WORD at end of input (R171, D8). -/
def readValue (p : Params) : ReadAnswer → Word
  | .char c => zext8 c
  | .eof => p.eofWord

/-- GETC after the host's answer (R171): `R[0] <- v; update_flags(0)`. -/
def finishGetc (r : ReadAnswer) (s : State) : State :=
  s.setResult 0 (readValue s.params r)

/-- GETC (R171). -/
def serviceGetc (s : State) : State :=
  awaitRead .getcRead finishGetc s

/-- OUT (R172): the low byte of R0. -/
def serviceOut (s : State) : State :=
  outFlush (outWrite (lowByte (s.reg 0)) s)

/-- IN after the host's answer (R174): echo, then `R[0] <- v; update_flags(0)`. -/
def finishIn (r : ReadAnswer) (s : State) : State :=
  let v := readValue s.params r
  (outFlush (outWrite (lowByte v) s)).setResult 0 v

/-- IN (R174): the prompt, then as GETC with an echo. -/
def serviceIn (s : State) : State :=
  awaitRead .inRead finishIn (outFlush (outBytes s.params.inPrompt s))

/-- The words of a string from `a` on, up to the first zero word, at most `n` of them; and whether the zero word was
reached (R173, R175). The storage array is read directly, and the address wraps modulo 2^16 (D12, D13). -/
def stringWords (m : Memory) : Nat → Word → List Word × Bool
  | 0, _ => ([], false)
  | n + 1, a =>
    let w := m.read a.toNat
    if w = 0x0000#16 then ([], true)
    else
      let rest := stringWords m n (a + 1)
      (w :: rest.1, rest.2)

/-- One lap: all the words of memory (20_memory.md R40). -/
def memWords : Nat := 65536

/-- PUTS and PUTSP: write the characters of the string at `a`. The string ends at a zero word; with no zero word in all
of memory the service never ends (R222): the step writes one whole lap and stays in phase `ph`, from which the next
step writes the next lap. `write` says whether a byte has been written before these. -/
def putString (unpack : Word → List Byte) (ph : Phase) (write : (State → State) → List Byte → State → State)
    (a : Word) (s : State) : State :=
  let ws := stringWords s.mem memWords a
  write (fun t => if ws.2 then outFlush { t with phase := .boundary } else { t with phase := ph })
    (ws.1.flatMap unpack) s

/-- The character of a PUTS word: its low byte (R173, D13). -/
def putsUnpack (w : Word) : List Byte := [lowByte w]

/-- The characters of a PUTSP word: the low byte always, then the high byte if it is not zero (R175). -/
def putspUnpack (w : Word) : List Byte :=
  if highByte w = 0x00#8 then [lowByte w] else [lowByte w, highByte w]

/-- PUTS (R173). -/
def servicePuts (s : State) : State :=
  putString putsUnpack (.puts (s.reg 0)) writeString (s.reg 0) s

/-- PUTSP (R175). -/
def servicePutsp (s : State) : State :=
  putString putspUnpack (.putsp (s.reg 0)) writeString (s.reg 0) s

/-- HALT (R176): the halt notice, then `RunState <- HALTED`. -/
def serviceHalt (s : State) : State :=
  { outFlush (outBytes s.params.haltNotice s) with runState := .halted }

/-- An unknown vector (R177, D5): nothing under the policy `noop`; refused under the policy `refuse`. -/
def serviceUnknown (vector : Byte) (s : State) : Result :=
  match s.params.unknownTrapPolicy with
  | .noop => .next s
  | .refuse => .refused (.unknownTrap vector)

/-- TRAP (R170): the link, then the service the vector selects. -/
def execTrap (vector : Byte) (s : State) : Result :=
  let s := enterTrap s
  if vector = 0x20#8 then .next (serviceGetc s)
  else if vector = 0x21#8 then .next (serviceOut s)
  else if vector = 0x22#8 then .next (servicePuts s)
  else if vector = 0x23#8 then .next (serviceIn s)
  else if vector = 0x24#8 then .next (servicePutsp s)
  else if vector = 0x25#8 then .next (serviceHalt s)
  else serviceUnknown vector s

/-- TRAP x20 (R170, R171). -/
def execGetc (s : State) : Result := .next (serviceGetc (enterTrap s))

/-- TRAP x21 (R170, R172). -/
def execOut (s : State) : Result := .next (serviceOut (enterTrap s))

/-- TRAP x22 (R170, R173). -/
def execPuts (s : State) : Result := .next (servicePuts (enterTrap s))

/-- TRAP x23 (R170, R174). -/
def execIn (s : State) : Result := .next (serviceIn (enterTrap s))

/-- TRAP x24 (R170, R175). -/
def execPutsp (s : State) : Result := .next (servicePutsp (enterTrap s))

/-- TRAP x25 (R170, R176). -/
def execHalt (s : State) : Result := .next (serviceHalt (enterTrap s))

end Sys2Proof.Machine
end

