-- ==== Sys2Proof/Machine/Cycle.lean ====
section
/-! DEFINITION. The parts of the step cycle around the execution of an instruction (70_reset_and_hazards.md R243): the
fetch, the breakpoint check, and going on from a hold. -/

namespace Sys2Proof.Machine

/-- The fetch: `instr <- MemRead(PC, 1); pc <- PC + 1` (R243). It polls if PC is KBSR_ADDR (20_memory.md R47). -/
def fetch (s : State) : Word × State :=
  let r := memRead s.pc s
  (r.1, r.2.setPc (s.pc + 1#16))

/-- Whether the breakpoint check hits at the fetch address `a` (60_exceptions.md R219). -/
def State.breakpointHit (s : State) (a : Word) : Bool :=
  s.debugEnabled && s.breakpoints.contains a

/-- The diagnostic written at a breakpoint (R219, D22). -/
def writeDiagnostic (a w : Word) (s : State) : State :=
  outFlush (outBytes (Config.bpDiagnostic a w) s)

/-- What a breakpoint hit tells the host before the hold: the `bp_hit` signal (00_scope.md R11), then the diagnostic. -/
def reportBreakpoint (a w : Word) (s : State) : State :=
  writeDiagnostic a w (bpHit a w s)

/-- Hold until the host signals bp_confirm (R219): a cancel point (R213), then `go` if a signal is ready, else hold. -/
def awaitConfirm (a w : Word) (go : State → Result) (s : State) : Result :=
  atCancelPoint .next (fun s =>
    match s.confirms with
    | 0 => .next { s with phase := .bpConfirm a w }
    | n + 1 => go { s with confirms := n, phase := .boundary }) s

/-- The step from the fetch on, after the boundary's cancel point: fetch, breakpoint check, then `run` on the fetched
word (R243, the order of R215). -/
def fetchThen (run : Word → State → Result) (s : State) : Result :=
  let a := s.pc
  let f := fetch s
  if f.2.breakpointHit a then awaitConfirm a f.1 (run f.1) (reportBreakpoint a f.1 f.2)
  else run f.1 f.2

/-- The step of a RUNNING block, from wherever it stands: at a boundary the cycle above; in a hold, the wait goes on;
in an endless PUTS or PUTSP, the next lap, whose bytes all follow an earlier one (R213, R222). -/
def cycle (run : Word → State → Result) (s : State) : Result :=
  match s.phase with
  | .boundary => atCancelPoint .next (fetchThen run) s
  | .getcRead => .next (awaitRead .getcRead finishGetc s)
  | .inRead => .next (awaitRead .inRead finishIn s)
  | .bpConfirm a w => awaitConfirm a w (run w) s
  | .puts a => .next (putString putsUnpack (.puts a) writeRest a s)
  | .putsp a => .next (putString putspUnpack (.putsp a) writeRest a s)

/-- Storage with an instruction word where the next fetch reads (see `State.withFetchWord`). -/
def State.placeAtPc (s : State) (w : Word) : State :=
  s.memWrite s.pc w

end Sys2Proof.Machine
end

