-- ==== Sys2Proof/Machine/Control.lean ====
section
/-! DEFINITION. BR, JMP, JSR and JSRR (41_control.md R120 to R123). PC already holds the instruction's address plus 1.
No flag is written, there is no delay slot, and targets wrap modulo 2^16 (R124). -/

namespace Sys2Proof.Machine

/-- BR (R120): `if (instr[11:9] & COND) != 0: pc <- PC + sext_9(PCoffset9)`. -/
def execBr (n z p : Bool) (off9 : BitVec 9) (s : State) : Result :=
  .next (if branchTaken n z p s.cond then s.setPc (s.pcRel9 off9) else s)

/-- JMP (R121): `pc <- R[BaseR]`. -/
def execJmp (base : RegNum) (s : State) : Result :=
  .next (s.setPc (s.reg base))

/-- JSR (R122): `R[7] <- PC; pc <- PC + sext_11(PCoffset11)`. -/
def execJsr (off11 : BitVec 11) (s : State) : Result :=
  .next (s.link.setPc (s.pcRel11 off11))

/-- JSRR (R123, D20): `R[7] <- PC; pc <- R[BaseR]`, the base read after the R7 write. -/
def execJsrr (base : RegNum) (s : State) : Result :=
  let s := s.link
  .next (s.setPc (s.reg base))

end Sys2Proof.Machine
end

