-- ==== Sys2Proof/Machine/LoadStore.lean ====
section
/-! DEFINITION. LD, LDI, LDR, LEA, ST, STI and STR (42_loadstore.md R140 to R146). Loads read through `memRead`, which
polls at KBSR_ADDR; stores are plain. -/

namespace Sys2Proof.Machine

/-- LD (R140). -/
def execLd (dr : RegNum) (off9 : BitVec 9) (s : State) : Result :=
  let r := memRead (s.pcRel9 off9) s
  .next (r.2.setResult dr r.1)

/-- LDI (R141): the pointer read, then the data read. -/
def execLdi (dr : RegNum) (off9 : BitVec 9) (s : State) : Result :=
  let p := memRead (s.pcRel9 off9) s
  let r := memRead p.1 p.2
  .next (r.2.setResult dr r.1)

/-- LDR (R142): the address is computed before DR is written. -/
def execLdr (dr base : RegNum) (off6 : BitVec 6) (s : State) : Result :=
  let r := memRead (s.baseOff base off6) s
  .next (r.2.setResult dr r.1)

/-- LEA (R143): the address itself; no memory access. -/
def execLea (dr : RegNum) (off9 : BitVec 9) (s : State) : Result :=
  .next (s.setResult dr (s.pcRel9 off9))

/-- ST (R144). -/
def execSt (sr : RegNum) (off9 : BitVec 9) (s : State) : Result :=
  .next (s.memWrite (s.pcRel9 off9) (s.reg sr))

/-- STI (R145): the pointer read, which may poll, then the store. -/
def execSti (sr : RegNum) (off9 : BitVec 9) (s : State) : Result :=
  let p := memRead (s.pcRel9 off9) s
  .next (p.2.memWrite p.1 (p.2.reg sr))

/-- STR (R146). -/
def execStr (sr base : RegNum) (off6 : BitVec 6) (s : State) : Result :=
  .next (s.memWrite (s.baseOff base off6) (s.reg sr))

end Sys2Proof.Machine
end

