-- ==== Sys2Proof/Machine/Operate.lean ====
section
/-! DEFINITION. ADD, AND and NOT (40_operate.md R101 to R105). Both sources are read before DR is written. -/

namespace Sys2Proof.Machine

/-- ADD, register form (R101): `R[DR] <- R[SR1] + R[SR2]`, flags. -/
def execAddReg (dr sr1 sr2 : RegNum) (s : State) : Result :=
  .next (s.setResult dr (s.reg sr1 + s.reg sr2))

/-- ADD, immediate form (R102): `R[DR] <- R[SR1] + sext_5(imm5)`, flags. -/
def execAddImm (dr sr1 : RegNum) (imm5 : BitVec 5) (s : State) : Result :=
  .next (s.setResult dr (s.reg sr1 + sext5 imm5))

/-- AND, register form (R103): `R[DR] <- R[SR1] & R[SR2]`, flags. -/
def execAndReg (dr sr1 sr2 : RegNum) (s : State) : Result :=
  .next (s.setResult dr (s.reg sr1 &&& s.reg sr2))

/-- AND, immediate form (R104): `R[DR] <- R[SR1] & sext_5(imm5)`, flags. -/
def execAndImm (dr sr1 : RegNum) (imm5 : BitVec 5) (s : State) : Result :=
  .next (s.setResult dr (s.reg sr1 &&& sext5 imm5))

/-- NOT (R105): `R[DR] <- ~R[SR]`, flags. -/
def execNot (dr sr : RegNum) (s : State) : Result :=
  .next (s.setResult dr (~~~ s.reg sr))

end Sys2Proof.Machine
end

