-- ==== Sys2Proof/Machine/Reserved.lean ====
section
/-! DEFINITION. RTI and RES, the two fatal opcodes (44_reserved.md R200 to R202). -/

namespace Sys2Proof.Machine

/-- RTI (R200): `raise Fatal(opcode = RTI, addr = PC - 1, word = instr)`. -/
def execRti (low : BitVec 12) (s : State) : Result :=
  .next (raiseFatal { cause := .rti, addr := s.pc - 1#16, word := rtiWord low } s)

/-- RES (R201): `raise Fatal(opcode = RES, addr = PC - 1, word = instr)`. -/
def execRes (low : BitVec 12) (s : State) : Result :=
  .next (raiseFatal { cause := .res, addr := s.pc - 1#16, word := resWord low } s)

end Sys2Proof.Machine
end

