-- ==== Sys2Proof/Machine/Step.lean ====
section
/-! DEFINITION. One step of the block (70_reset_and_hazards.md R243). -/

namespace Sys2Proof.Machine

/-- Decode a fetched word and execute it. -/
def execWord (w : Word) (s : State) : Result :=
  exec (decode w) s

/-- `Step()` while RunState is RUNNING (R243); "When RunState is HALTED, FATAL or CANCELLED there is no step". -/
def step (s : State) : Host.Outcome State Fault Refusal :=
  match s.runState with
  | .running => cycle execWord s
  | .halted => .fault (.terminal .halted)
  | .fatal => .fault (.terminal .fatal)
  | .cancelled => .fault (.terminal .cancelled)

/-- The state with one instruction word stored at PC, where the next fetch reads (log 23). -/
def State.withFetchWord (s : State) (nbits w : Nat) : State :=
  s.placeAtPc (BitVec.ofNat 16 (w % 2 ^ nbits))

end Sys2Proof.Machine
end

