-- ==== Sys2Proof/Machine/Loader.lean ====
section
/-! DEFINITION. What stands around a run: image loading (20_memory.md R57, R58), boot (70_reset_and_hazards.md R240) and
the host's exit status (60_exceptions.md R223). -/

namespace Sys2Proof.Machine

/-- A loaded image as the block receives it: an origin and its words (R57). -/
structure Image where
  origin : Word
  words : List Word
  deriving DecidableEq, Repr

/-- `LoadImage` from address `a` on: words past 0xFFFF are not loaded (R57). -/
def loadWords : Nat → List Word → Memory → Memory
  | _, [], m => m
  | a, w :: ws, m => if a > 0xFFFF then m else loadWords (a + 1) ws (m.write a w)

/-- `LoadImage(origin, words)` (R57). -/
def loadImage (m : Memory) (img : Image) : Memory :=
  loadWords img.origin.toNat img.words m

/-- Several images, one after another in the order given (R58). -/
def loadImages (imgs : List Image) (m : Memory) : Memory :=
  imgs.foldl loadImage m

/-- Reset with images, DebugEnabled and Breakpoints (R240). -/
def boot (imgs : List Image) (debug : Bool) (bps : List Word) : State :=
  { State.reset with mem := loadImages imgs State.reset.mem, debugEnabled := debug, breakpoints := bps }

/-- How the host's process ends (R223). -/
inductive ExitStatus where
  | code (n : Int)
  /-- "abnormal termination (the source gives no code)". -/
  | abnormal
  deriving DecidableEq, Repr

/-- The exit status of a run that has ended (R223); none while RUNNING. -/
def exitStatus : RunState → Option ExitStatus
  | .running => none
  | .halted => some (.code 0)
  | .fatal => some .abnormal
  | .cancelled => some (.code (-2))

/-- What the host does with the image arguments: the block runs, or never does (R223). -/
inductive Start where
  | runs (s : State)
  | exits (e : ExitStatus)
  deriving DecidableEq, Repr

/-- Start the block from image arguments, `none` an image that fails to load (R58, R223, C2). -/
def hostStart (args : List (Option Image)) (debug : Bool) (bps : List Word) : Start :=
  match args with
  | [] => .exits (.code 2)
  | none :: _ => .exits (.code Config.firstImageFailExit)
  | some img :: rest =>
    if rest.all Option.isSome then .runs (boot (img :: rest.filterMap id) debug bps)
    else .exits (.code 1)

end Sys2Proof.Machine
end

