-- ==== Sys2Proof/Safety.lean ====
section
/-! DEFINITION. What claims are stated in: the invariant of the machine, the fields of a word as the spec reads them, the
opcode table's rows, and relations between the state before and after. They are written from the spec's words and not
from the definitions of the machine. -/

namespace Sys2Proof.Machine

/-! ## The invariant -/

/-- The opcode a cause stands for (60_exceptions.md R210). -/
def FatalCause.opcode : FatalCause → Opcode
  | .rti => .rti
  | .res => .res

/-- What holds in the reset state and after every step. -/
structure State.Inv (s : State) : Prop where
  /-- Memory is in its canonical form. -/
  mem_wf : s.mem.wf
  /-- The two keyboard words are different words (D3). -/
  kbsr_ne_kbdr : s.params.kbsrAddr ≠ s.params.kbdrAddr
  /-- FatalInfo is empty before RunState is FATAL and holds a record from then on (10_state.md R30). -/
  fatal_iff : s.fatalInfo.isSome = true ↔ s.runState = .fatal
  /-- The record is true: PC is still one past the address, and the word has the cause's opcode (44_reserved.md R202). -/
  fatal_record : ∀ f, s.fatalInfo = some f → s.pc = f.addr + 1#16 ∧ opcodeField f.word = f.cause.opcode.code
  /-- A hold on bp_confirm stands at a breakpoint, right after its fetch, and it is the last one signalled
  (60_exceptions.md R219, 00_scope.md R11). -/
  bp_hold : ∀ a w, s.phase = .bpConfirm a w →
    s.debugEnabled = true ∧ a ∈ s.breakpoints ∧ s.pc = a + 1#16 ∧ s.bpHits.getLast? = some (a, w)
  /-- HALTED and FATAL are entered only outside a hold (00_scope.md R12). -/
  hold_running : s.phase ≠ .boundary → s.runState = .running ∨ s.runState = .cancelled

/-! ## Words and fields -/

/-- The field `w[hi:lo]`, read as an unsigned number (00_scope.md R7). -/
def bitsOf (w : Word) (hi lo : Nat) : Nat := w.toNat / 2 ^ lo % 2 ^ (hi + 1 - lo)

/-- A register field `w[lo+2:lo]`. -/
def regOf (w : Word) (lo : Nat) : RegNum := Fin.ofNat 8 (bitsOf w (lo + 2) lo)

/-- A field of `n` bits at the low end of a word. -/
def lowOf (n : Nat) (w : Word) : BitVec n := BitVec.ofNat n (w.toNat % 2 ^ n)

/-- The signed value of a field as a 16-bit word: `sext_N` by its meaning (00_scope.md R8). -/
def signedWord {n : Nat} (v : BitVec n) : Word := BitVec.ofInt 16 v.toInt

/-- COND agrees with a value read as two's complement (40_operate.md R100). -/
def CondMatches (c : Cond) (v : Word) : Prop :=
  (v.toInt = 0 → c = .zero) ∧ (v.toInt < 0 → c = .negative) ∧ (0 < v.toInt → c = .positive)

end Sys2Proof.Machine

namespace Sys2Proof

/-! ## The opcode table -/

/-- The match and mask of an instruction's row of spec/opcode_table.json. -/
def Instr.row : Instr → Word × Word
  | .addReg _ _ _ => (0x1000#16, 0xF020#16)
  | .addImm _ _ _ => (0x1020#16, 0xF020#16)
  | .andReg _ _ _ => (0x5000#16, 0xF020#16)
  | .andImm _ _ _ => (0x5020#16, 0xF020#16)
  | .not _ _ => (0x9000#16, 0xF000#16)
  | .br _ _ _ _ => (0x0000#16, 0xF000#16)
  | .jmp _ => (0xC000#16, 0xF000#16)
  | .jsr _ => (0x4800#16, 0xF800#16)
  | .jsrr _ => (0x4000#16, 0xF800#16)
  | .ld _ _ => (0x2000#16, 0xF000#16)
  | .ldi _ _ => (0xA000#16, 0xF000#16)
  | .ldr _ _ _ => (0x6000#16, 0xF000#16)
  | .lea _ _ => (0xE000#16, 0xF000#16)
  | .st _ _ => (0x3000#16, 0xF000#16)
  | .sti _ _ => (0xB000#16, 0xF000#16)
  | .str _ _ _ => (0x7000#16, 0xF000#16)
  | .trap _ => (0xF000#16, 0xF000#16)
  | .rti _ => (0x8000#16, 0xF000#16)
  | .res _ => (0xD000#16, 0xF000#16)
  | .getc => (0xF020#16, 0xF0FF#16)
  | .out => (0xF021#16, 0xF0FF#16)
  | .puts => (0xF022#16, 0xF0FF#16)
  | .in_ => (0xF023#16, 0xF0FF#16)
  | .putsp => (0xF024#16, 0xF0FF#16)
  | .halt => (0xF025#16, 0xF0FF#16)

/-- The ignored bits of an instruction (30_encoding.md R75). Those of RTI and RES are left out: they play no part in
what the instruction does but are recorded in FatalInfo (44_reserved.md R202). -/
def Instr.ignoredBits : Instr → Word
  | .addReg _ _ _ => 0x0018#16
  | .andReg _ _ _ => 0x0018#16
  | .not _ _ => 0x003F#16
  | .jmp _ => 0x0E3F#16
  | .jsrr _ => 0x063F#16
  | .trap _ => 0x0F00#16
  | .getc => 0x0F00#16
  | .out => 0x0F00#16
  | .puts => 0x0F00#16
  | .in_ => 0x0F00#16
  | .putsp => 0x0F00#16
  | .halt => 0x0F00#16
  | _ => 0x0000#16

/-- The registers an instruction may write (10_state.md R22). -/
def Instr.mayWrite : Instr → List RegNum
  | .addReg dr _ _ => [dr]
  | .addImm dr _ _ => [dr]
  | .andReg dr _ _ => [dr]
  | .andImm dr _ _ => [dr]
  | .not dr _ => [dr]
  | .ld dr _ => [dr]
  | .ldi dr _ => [dr]
  | .ldr dr _ _ => [dr]
  | .lea dr _ => [dr]
  | .jsr _ => [7]
  | .jsrr _ => [7]
  | .trap v => if v = 0x20#8 ∨ v = 0x23#8 then [7, 0] else [7]
  | .getc => [7, 0]
  | .in_ => [7, 0]
  | .out => [7]
  | .puts => [7]
  | .putsp => [7]
  | .halt => [7]
  | _ => []

/-- The instructions that may call `update_flags` (10_state.md R26). -/
def Instr.maySetFlags : Instr → Bool
  | .addReg _ _ _ => true
  | .addImm _ _ _ => true
  | .andReg _ _ _ => true
  | .andImm _ _ _ => true
  | .not _ _ => true
  | .ld _ _ => true
  | .ldi _ _ => true
  | .ldr _ _ _ => true
  | .lea _ _ => true
  | .trap v => v == 0x20#8 || v == 0x23#8
  | .getc => true
  | .in_ => true
  | _ => false

/-- The instructions that may write PC after the fetch increment (10_state.md R24). -/
def Instr.mayJump : Instr → Bool
  | .br _ _ _ _ => true
  | .jmp _ => true
  | .jsr _ => true
  | .jsrr _ => true
  | _ => false

/-- The instructions that write memory themselves (20_memory.md R48). -/
def Instr.stores : Instr → Bool
  | .st _ _ => true
  | .sti _ _ => true
  | .str _ _ _ => true
  | _ => false

/-- The instructions whose own accesses go through MemRead and so may poll (20_memory.md R47). -/
def Instr.readsMemory : Instr → Bool
  | .ld _ _ => true
  | .ldi _ _ => true
  | .ldr _ _ _ => true
  | .sti _ _ => true
  | _ => false

end Sys2Proof

namespace Sys2Proof.Machine

/-! ## Relations between the state before and the state after -/

/-- The configuration, which no step writes (10_state.md R31, 00_scope.md R6). -/
structure SameConfig (s t : State) : Prop where
  debugEnabled : t.debugEnabled = s.debugEnabled
  breakpoints : t.breakpoints = s.breakpoints
  params : t.params = s.params

/-- The configuration, RunState, FatalInfo, the phase and the host's cancel and confirmations as before. -/
structure SameRun (s t : State) : Prop where
  config : SameConfig s t
  runState : t.runState = s.runState
  fatalInfo : t.fatalInfo = s.fatalInfo
  phase : t.phase = s.phase
  confirms : t.confirms = s.confirms
  cancelAfter : t.cancelAfter = s.cancelAfter

/-- The input and output streams and the breakpoint signals as before. -/
structure SameStreams (s t : State) : Prop where
  output : t.output = s.output
  bpHits : t.bpHits = s.bpHits
  polls : t.polls = s.polls
  pollDraw : t.pollDraw = s.pollDraw
  reads : t.reads = s.reads

/-- Every word of memory reads as before. -/
def SameMemory (s t : State) : Prop := ∀ a, t.word a = s.word a

/-- Every general register as before. -/
def SameRegs (s t : State) : Prop := ∀ r, t.reg r = s.reg r

/-- Every general register but `d` as before. -/
def SameRegsBut (d : RegNum) (s t : State) : Prop := ∀ r, r ≠ d → t.reg r = s.reg r

/-- The frame of an instruction that defines register `d` and COND: nothing else is written, and of the registers
only `d` (40_operate.md R106, 42_loadstore.md R147). -/
structure DefinesOnly (d : RegNum) (s t : State) : Prop where
  regs : SameRegsBut d s t
  pc : t.pc = s.pc
  memory : SameMemory s t
  run : SameRun s t
  streams : SameStreams s t

/-- The frame of a control transfer, PC and (in `SameRegsBut`) the link aside. -/
structure TransfersOnly (s t : State) : Prop where
  cond : t.cond = s.cond
  memory : SameMemory s t
  run : SameRun s t
  streams : SameStreams s t

/-- `v` is stored at `a` and nothing else changes (20_memory.md R46). -/
structure Stores (a v : Word) (s t : State) : Prop where
  stored : t.word a = v
  elsewhere : ∀ b, b ≠ a → t.word b = s.word b
  regs : SameRegs s t
  pc : t.pc = s.pc
  cond : t.cond = s.cond
  run : SameRun s t
  streams : SameStreams s t

/-- `r` is the host's answer to a poll in state `s`, and the answer is taken in `t`: the first of the answers that stand
in the state, or a free draw (00_scope.md R11, log 8). -/
inductive PollAnswer (s : State) : Option Byte → State → Prop where
  | given (r : Option Byte) (rest : List (Option Byte)) (h : s.polls = r :: rest) :
      PollAnswer s r { s with polls := rest }
  | drawn (h : s.polls = []) :
      PollAnswer s (Config.freePoll s.pollDraw) { s with pollDraw := s.pollDraw + 1 }

/-- `u` is `s` after one keyboard poll (20_memory.md R44): the status and data words, and nothing but memory. -/
structure Polled (s u : State) (r : Option Byte) (q : State) : Prop where
  answer : PollAnswer s r q
  found_status : ∀ c, r = some c → s.params.kbsrAddr ≠ s.params.kbdrAddr → u.word s.params.kbsrAddr = 0x8000#16
  found_data : ∀ c, r = some c → (u.word s.params.kbdrAddr).toNat = c.toNat
  empty_status : r = none → u.word s.params.kbsrAddr = 0x0000#16
  empty_data : r = none → s.params.kbsrAddr ≠ s.params.kbdrAddr →
    u.word s.params.kbdrAddr = s.word s.params.kbdrAddr
  elsewhere : ∀ a, a ≠ s.params.kbsrAddr → a ≠ s.params.kbdrAddr → u.word a = s.word a
  rest : u = { q with mem := u.mem }

/-- `MemRead(a, 1)` in state `s` gives `v` and leaves `u` (20_memory.md R43, R45). -/
structure ReadAt (a : Word) (s u : State) (v : Word) : Prop where
  plain : a ≠ s.params.kbsrAddr → u = s
  status : a = s.params.kbsrAddr → ∃ r q, Polled s u r q
  value : v = u.word a

/-- The count of cancel points after one more has been passed without a cancel. -/
def passPoint (c : Option Nat) : Option Nat := c.map (· - 1)

/-- What every TRAP leaves: R7 the link, R1 to R6, PC, memory, FatalInfo, the configuration, the breakpoint signals
and the polls untouched (43_trap.md R170, R179). -/
structure TrapFrame (s t : State) : Prop where
  link : t.reg 7 = s.pc
  regs : ∀ r, r ≠ 0 → r ≠ 7 → t.reg r = s.reg r
  pc : t.pc = s.pc
  memory : SameMemory s t
  fatalInfo : t.fatalInfo = s.fatalInfo
  config : SameConfig s t
  polls : t.polls = s.polls
  pollDraw : t.pollDraw = s.pollDraw
  confirms : t.confirms = s.confirms
  bpHits : t.bpHits = s.bpHits

/-- A service that writes no register but the link and no flag, and reads no input. -/
structure OutputFrame (s t : State) : Prop where
  trap : TrapFrame s t
  r0 : t.reg 0 = s.reg 0
  cond : t.cond = s.cond
  reads : t.reads = s.reads

/-- The value an answer of the host stands for (43_trap.md R171). -/
def ReadGives (p : Params) : ReadAnswer → Word → Prop
  | .char c, v => v.toNat = c.toNat
  | .eof, v => v = p.eofWord

/-- Memory holds the non-zero words `ws` from `a` on, followed by a zero word; addresses wrap (43_trap.md R173). -/
def StringAt (s : State) (a : Word) (ws : List Word) : Prop :=
  (∀ (i : Nat) (w : Word), ws[i]? = some w → s.word (a + BitVec.ofNat 16 i) = w ∧ w ≠ 0x0000#16) ∧
  s.word (a + BitVec.ofNat 16 ws.length) = 0x0000#16

/-- The byte PUTS writes for each word: bits [7:0] (43_trap.md R173). -/
def putsBytes (ws : List Word) : List Byte := ws.map fun w => BitVec.ofNat 8 (bitsOf w 7 0)

/-- The bytes PUTSP writes: for each word bits [7:0], then bits [15:8] if they are not zero (43_trap.md R175). -/
def putspBytes : List Word → List Byte
  | [] => []
  | w :: ws =>
    BitVec.ofNat 8 (bitsOf w 7 0) ::
      (if bitsOf w 15 8 = 0 then putspBytes ws else BitVec.ofNat 8 (bitsOf w 15 8) :: putspBytes ws)

/-- The step of `s` executes the word `w`: it is fetched at a boundary, or held at a breakpoint. -/
def ExecutesWord (s : State) (w : Word) : Prop :=
  (s.phase = .boundary ∧ ∃ u, ReadAt s.pc { s with cancelAfter := passPoint s.cancelAfter } u w) ∨
  ∃ a, s.phase = .bpConfirm a w

/-- A RUNNING block at an instruction boundary, with no cancel present. -/
structure AtBoundary (s : State) : Prop where
  running : s.runState = .running
  phase : s.phase = .boundary
  noCancel : s.cancelAfter ≠ some 0

/-- The breakpoint check hits at address `a` (60_exceptions.md R219). -/
def HitsBreakpoint (s : State) (a : Word) : Prop := s.debugEnabled = true ∧ a ∈ s.breakpoints

end Sys2Proof.Machine
end

