-- ==== Sys2Proof/Certificates/Slice0/Obligations.lean ====
section
/-! DEFINITION. The statements for the provers. Each docstring names the rule of spec/ the statement formalises, and where
it rests on a decision the spec marks as its own (92_eei_decisions.md D<n>) or on the model's choice, the log entry. The
opcode numbers in the word clauses are those each rule gives; the spec marks them as general knowledge (D1, log 1). -/

open Sys2Proof
open Sys2Proof.Machine

/-! ## Encoding (30_encoding.md, 00_scope.md R8) -/

/-- Every well-formed instruction, with every operand at every value, decodes from its own encoding (R72, R73, R76). -/
def Obligations.DecodeEncodeRoundTrip : Prop :=
  ∀ i : Instr, i.wellFormed = true → decode (encode i) = i

/-- R77: every word decodes to a well-formed instruction whose row of the opcode table it matches, and a word that matches
any other instruction's row than TRAP's decodes to that row (a service's word matches TRAP's row too). That a service's word is
the service's own instruction is the model's choice (log 5). -/
def Obligations.EveryWordIsOneRow : Prop :=
  (∀ w : Word, (decode w).wellFormed = true ∧ w &&& (decode w).row.2 = (decode w).row.1) ∧
  ∀ (w : Word) (i : Instr), w &&& i.row.2 = i.row.1 → (∀ v, i ≠ .trap v) → (decode w).row = i.row

/-- No named bit of a word is lost in decoding: encoding the decoded instruction gives the word back outside R75's
ignored bits. -/
def Obligations.EncodeDecodeKeepsNamedBits : Prop :=
  ∀ w : Word, encode (decode w) &&& ~~~ (decode w).ignoredBits = w &&& ~~~ (decode w).ignoredBits

/-- R75: changing ignored bits changes nothing the instruction does. For RTI and RES the whole effect but the recorded
word is the same (44_reserved.md R202 records the word). Ignoring them is the spec's choice D4 (log 4). -/
def Obligations.IgnoredBitsPlayNoPart : Prop :=
  (∀ w v : Word, decode (w ^^^ (v &&& (decode w).ignoredBits)) = decode w) ∧
  (∀ (x y : BitVec 12) (s t : State), exec (.rti x) s = .next t →
    exec (.rti y) s = .next { t with fatalInfo := some { cause := .rti, addr := s.pc - 1#16, word := rtiWord y } }) ∧
  (∀ (x y : BitVec 12) (s t : State), exec (.res x) s = .next t →
    exec (.res y) s = .next { t with fatalInfo := some { cause := .res, addr := s.pc - 1#16, word := resWord y } })

/-- Words written out in 95_test_vectors.md decode to the instructions they stand for. -/
def Obligations.SampleWordsDecode : Prop :=
  decode 0x1042#16 = .addReg 0 1 2 ∧ decode 0x127F#16 = .addImm 1 1 31#5 ∧ decode 0x54C4#16 = .andReg 2 3 4 ∧
  decode 0x92BF#16 = .not 1 2 ∧ decode 0x07FE#16 = .br false true true 0x1FE#9 ∧ decode 0xC1C0#16 = .jmp 7 ∧
  decode 0x4804#16 = .jsr 4#11 ∧ decode 0x40C0#16 = .jsrr 3 ∧ decode 0xA201#16 = .ldi 1 1#9 ∧
  decode 0x64FF#16 = .ldr 2 3 0x3F#6 ∧ decode 0x74C1#16 = .str 2 3 1#6 ∧ decode 0xFF25#16 = .halt ∧
  decode 0xF026#16 = .trap 0x26#8 ∧ decode 0xDFFF#16 = .res 0xFFF#12

/-- R8: `sext_N` and `zext_N` by the rule's formula for N in [1, 16], and the four uses of `sext_N`. -/
def Obligations.SignAndZeroExtension : Prop :=
  (∀ (n : Nat) (v : Word), 1 ≤ n → n ≤ 16 → ∃ r, sext n v = some r ∧
    (bitsOf v (n - 1) (n - 1) = 0 → r.toNat = bitsOf v (n - 1) 0) ∧
    (bitsOf v (n - 1) (n - 1) = 1 → r.toNat = bitsOf v (n - 1) 0 + (2 ^ 16 - 2 ^ n))) ∧
  (∀ (n : Nat) (v : Word), 1 ≤ n → n ≤ 16 → (zext n v).toNat = bitsOf v (n - 1) 0) ∧
  (∀ v : Word, sext 5 v = some (sext5 (lowOf 5 v)) ∧ sext 6 v = some (sext6 (lowOf 6 v)) ∧
    sext 9 v = some (sext9 (lowOf 9 v)) ∧ sext 11 v = some (sext11 (lowOf 11 v)))

/-! ## Operate (40_operate.md) -/

/-- R100's pseudocode: `update_flags(r)` sets COND from R[r] by its three cases, one and only one of which applies, and
writes nothing else. -/
def Obligations.UpdateFlagsFollowsTheValue : Prop :=
  ∀ (s : State) (r : RegNum),
    (s.reg r = 0x0000#16 → (s.updateFlags r).cond = .zero) ∧
    (s.reg r ≠ 0x0000#16 → bitsOf (s.reg r) 15 15 = 1 → (s.updateFlags r).cond = .negative) ∧
    (s.reg r ≠ 0x0000#16 → bitsOf (s.reg r) 15 15 = 0 → (s.updateFlags r).cond = .positive) ∧
    s.updateFlags r = { s with cond := (s.updateFlags r).cond }

/-- R101: ADD, register form: its words, the sum modulo 2^16, COND, and the frame; it never stops. -/
def Obligations.AddRegisterForm : Prop :=
  (∀ w : Word, w &&& 0xF020#16 = 0x1000#16 → decode w = .addReg (regOf w 9) (regOf w 6) (regOf w 0)) ∧
  ∀ (dr sr1 sr2 : RegNum) (s : State), ∃ t, exec (.addReg dr sr1 sr2) s = .next t ∧
    (t.reg dr).toNat = ((s.reg sr1).toNat + (s.reg sr2).toNat) % 65536 ∧
    CondMatches t.cond (t.reg dr) ∧ DefinesOnly dr s t

/-- R102: ADD, immediate form. -/
def Obligations.AddImmediateForm : Prop :=
  (∀ w : Word, w &&& 0xF020#16 = 0x1020#16 → decode w = .addImm (regOf w 9) (regOf w 6) (lowOf 5 w)) ∧
  ∀ (dr sr1 : RegNum) (imm5 : BitVec 5) (s : State), ∃ t, exec (.addImm dr sr1 imm5) s = .next t ∧
    ((t.reg dr).toNat : Int) = ((s.reg sr1).toNat + imm5.toInt) % 65536 ∧
    CondMatches t.cond (t.reg dr) ∧ DefinesOnly dr s t

/-- R103: AND, register form, bit by bit. -/
def Obligations.AndRegisterForm : Prop :=
  (∀ w : Word, w &&& 0xF020#16 = 0x5000#16 → decode w = .andReg (regOf w 9) (regOf w 6) (regOf w 0)) ∧
  ∀ (dr sr1 sr2 : RegNum) (s : State), ∃ t, exec (.andReg dr sr1 sr2) s = .next t ∧
    (∀ k, (t.reg dr).getLsbD k = ((s.reg sr1).getLsbD k && (s.reg sr2).getLsbD k)) ∧
    CondMatches t.cond (t.reg dr) ∧ DefinesOnly dr s t

/-- R104: AND, immediate form: bits 15 to 5 of the immediate are its bit 4. -/
def Obligations.AndImmediateForm : Prop :=
  (∀ w : Word, w &&& 0xF020#16 = 0x5020#16 → decode w = .andImm (regOf w 9) (regOf w 6) (lowOf 5 w)) ∧
  ∀ (dr sr1 : RegNum) (imm5 : BitVec 5) (s : State), ∃ t, exec (.andImm dr sr1 imm5) s = .next t ∧
    (∀ k, (t.reg dr).getLsbD k = ((s.reg sr1).getLsbD k && imm5.getLsbD (min k 4))) ∧
    CondMatches t.cond (t.reg dr) ∧ DefinesOnly dr s t

/-- R105: NOT, bit by bit. That bits [5:0] of its words are ignored is the spec's choice D4 (log 4). -/
def Obligations.NotForm : Prop :=
  (∀ w : Word, w &&& 0xF000#16 = 0x9000#16 → decode w = .not (regOf w 9) (regOf w 6)) ∧
  ∀ (dr sr : RegNum) (s : State), ∃ t, exec (.not dr sr) s = .next t ∧
    (∀ k, k < 16 → (t.reg dr).getLsbD k = !(s.reg sr).getLsbD k) ∧
    CondMatches t.cond (t.reg dr) ∧ DefinesOnly dr s t

/-- R107: the register and immediate forms of ADD and AND agree when R[SR2] equals the sign-extended immediate. -/
def Obligations.RegisterAndImmediateFormsAgree : Prop :=
  ∀ (dr sr1 sr2 : RegNum) (imm5 : BitVec 5) (s : State), s.reg sr2 = signedWord imm5 →
    exec (.addReg dr sr1 sr2) s = exec (.addImm dr sr1 imm5) s ∧
    exec (.andReg dr sr1 sr2) s = exec (.andImm dr sr1 imm5) s

/-! ## Control (41_control.md) -/

/-- R120: BR's words; taken iff a cond bit meets COND; the target from the incremented PC, modulo 2^16; the frame.
Which bit is n, z and p is the spec's choice D2 (log 2). -/
def Obligations.BranchOnCond : Prop :=
  (∀ w : Word, w &&& 0xF000#16 = 0x0000#16 →
    decode w = .br (bitsOf w 11 11 == 1) (bitsOf w 10 10 == 1) (bitsOf w 9 9 == 1) (lowOf 9 w)) ∧
  ∀ (n z p : Bool) (off9 : BitVec 9) (s : State), ∃ t, exec (.br n z p off9) s = .next t ∧
    ((n = true ∧ s.cond = .negative) ∨ (z = true ∧ s.cond = .zero) ∨ (p = true ∧ s.cond = .positive) →
      (t.pc.toNat : Int) = (s.pc.toNat + off9.toInt) % 65536) ∧
    (¬ ((n = true ∧ s.cond = .negative) ∨ (z = true ∧ s.cond = .zero) ∨ (p = true ∧ s.cond = .positive)) →
      t.pc = s.pc) ∧
    SameRegs s t ∧ TransfersOnly s t

/-- R79: every word 0x0000 to 0x01FF is a no-op, whatever COND holds; BR with all three cond bits is always taken (R120). -/
def Obligations.BranchNeverAndAlways : Prop :=
  (∀ (w : Word) (s : State), w.toNat ≤ 0x01FF → exec (decode w) s = .next s) ∧
  ∀ (off9 : BitVec 9) (s : State), ∃ t, exec (.br true true true off9) s = .next t ∧ t.pc = s.pc + signedWord off9

/-- R121: JMP (RET with base 7): its words, the target, no register written. -/
def Obligations.JumpThroughRegister : Prop :=
  (∀ w : Word, w &&& 0xF000#16 = 0xC000#16 → decode w = .jmp (regOf w 6)) ∧
  ∀ (base : RegNum) (s : State), ∃ t, exec (.jmp base) s = .next t ∧
    t.pc = s.reg base ∧ SameRegs s t ∧ TransfersOnly s t

/-- R122: JSR: its words, the link in R7, the target modulo 2^16, the frame. -/
def Obligations.CallPcRelative : Prop :=
  (∀ w : Word, w &&& 0xF800#16 = 0x4800#16 → decode w = .jsr (lowOf 11 w)) ∧
  ∀ (off11 : BitVec 11) (s : State), ∃ t, exec (.jsr off11) s = .next t ∧
    t.reg 7 = s.pc ∧ (t.pc.toNat : Int) = (s.pc.toNat + off11.toInt) % 65536 ∧
    SameRegsBut 7 s t ∧ TransfersOnly s t

/-- R123: JSRR: its words, the link in R7, the base read after the R7 write (so base 7 goes on at PC: the
spec's choice D20, log 18), the frame. -/
def Obligations.CallThroughRegister : Prop :=
  (∀ w : Word, w &&& 0xF800#16 = 0x4000#16 → decode w = .jsrr (regOf w 6)) ∧
  ∀ (base : RegNum) (s : State), ∃ t, exec (.jsrr base) s = .next t ∧
    t.reg 7 = s.pc ∧ (base ≠ 7 → t.pc = s.reg base) ∧ (base = 7 → t.pc = s.pc) ∧
    SameRegsBut 7 s t ∧ TransfersOnly s t

/-! ## Memory and the keyboard (20_memory.md) -/

/-- R43, R44: MemRead gives the stored word; at KBSR_ADDR, and only there, it polls first, once; the poll's
effect (what it writes and that it takes the character is the spec's choice D9, log 20). -/
def Obligations.MemReadPollsAtStatus : Prop :=
  (∀ s : State, ∃ r q, Polled s (keyboardPoll s) r q) ∧
  ∀ (a : Word) (s : State), ReadAt a s (memRead a s).2 (memRead a s).1

/-- R45, R46: MemWrite is a plain store at every address, the keyboard words included. A word stored at KBSR_ADDR is not
read back: the read polls and gives 0x8000 or 0x0000 (that a poll writes exactly these words is the spec's choice D9,
log 20). A word stored at KBDR_ADDR is read back, twice alike. -/
def Obligations.MemWriteIsPlain : Prop :=
  (∀ (a v : Word) (s : State), Stores a v s (s.memWrite a v)) ∧
  ∀ (s : State) (v : Word), s.params.kbsrAddr ≠ s.params.kbdrAddr →
    ((memRead s.params.kbsrAddr (s.memWrite s.params.kbsrAddr v)).1 = 0x8000#16 ∨
      (memRead s.params.kbsrAddr (s.memWrite s.params.kbsrAddr v)).1 = 0x0000#16) ∧
    (let r := memRead s.params.kbdrAddr (s.memWrite s.params.kbdrAddr v)
     r.1 = v ∧ memRead s.params.kbdrAddr r.2 = r)

/-- Canonical memories that read alike at every address are the same list, and a write keeps the form: equal memories are
equal data (the model's own form, log 6). -/
def Obligations.MemoryIsCanonical : Prop :=
  (∀ m n : Memory, m.wf → n.wf → (∀ a, a < 65536 → m.read a = n.read a) → m = n) ∧
  ∀ (m : Memory) (a : Word) (v : Word), m.wf →
    (m.write a.toNat v).wf ∧ m.write a.toNat (m.read a.toNat) = m

/-- R57, R58: an image's words stand from its origin on, words past 0xFFFF are dropped, every other word is kept; later
images are written over earlier ones (the spec's choices D15, log 23); after boot PC is 0x3000 whatever the origins are. -/
def Obligations.ImagesLoadInOrder : Prop :=
  (∀ (m : Memory) (img : Image) (a : Word),
    (∀ (k : Nat) (w : Word), img.words[k]? = some w → img.origin.toNat + k = a.toNat →
      (loadImage m img).read a.toNat = w) ∧
    ((∀ k : Nat, k < img.words.length → img.origin.toNat + k ≠ a.toNat) →
      (loadImage m img).read a.toNat = m.read a.toNat)) ∧
  (∀ (imgs : List Image) (last : Image) (debug : Bool) (bps : List Word),
    (boot (imgs ++ [last]) debug bps).mem = loadImage (boot imgs debug bps).mem last ∧
    (boot (imgs ++ [last]) debug bps).pc = 0x3000#16)

/-- R58, R223: the block runs only if at least one image is given and every image loads; exit statuses 2 and 1 for the
other cases the source numbers, and 0, -2 and abnormal for the three terminal states (D27, C2; log 24). -/
def Obligations.HostStartsOnlyWithAllImages : Prop :=
  (∀ (args : List (Option Image)) (debug : Bool) (bps : List Word) (s : State),
    hostStart args debug bps = .runs s ↔
      ∃ imgs : List Image, imgs ≠ [] ∧ args = imgs.map some ∧ s = boot imgs debug bps) ∧
  (∀ (debug : Bool) (bps : List Word), hostStart [] debug bps = .exits (.code 2)) ∧
  (∀ (img : Image) (rest : List (Option Image)) (debug : Bool) (bps : List Word), none ∈ rest →
    hostStart (some img :: rest) debug bps = .exits (.code 1)) ∧
  (∀ r : RunState, exitStatus r = none ↔ r = .running) ∧
  exitStatus .halted = some (.code 0) ∧ exitStatus .cancelled = some (.code (-2)) ∧
  exitStatus .fatal = some .abnormal

/-! ## Loads and stores (42_loadstore.md) -/

/-- R140: LD: its words, the address, the read (which may poll), DR and COND, the frame. -/
def Obligations.LoadPcRelative : Prop :=
  (∀ w : Word, w &&& 0xF000#16 = 0x2000#16 → decode w = .ld (regOf w 9) (lowOf 9 w)) ∧
  ∀ (dr : RegNum) (off9 : BitVec 9) (s : State), ∃ u v t,
    ReadAt (s.pc + signedWord off9) s u v ∧ exec (.ld dr off9) s = .next t ∧
    t.reg dr = v ∧ CondMatches t.cond v ∧ DefinesOnly dr u t

/-- R141: LDI: its words, the pointer read and then the data read (each may poll), DR and COND, the frame. -/
def Obligations.LoadIndirect : Prop :=
  (∀ w : Word, w &&& 0xF000#16 = 0xA000#16 → decode w = .ldi (regOf w 9) (lowOf 9 w)) ∧
  ∀ (dr : RegNum) (off9 : BitVec 9) (s : State), ∃ u1 p u2 v t,
    ReadAt (s.pc + signedWord off9) s u1 p ∧ ReadAt p u1 u2 v ∧ exec (.ldi dr off9) s = .next t ∧
    t.reg dr = v ∧ CondMatches t.cond v ∧ DefinesOnly dr u2 t

/-- R142: LDR: its words, base + offset, DR and COND, the frame; the base is not modified unless it is DR. -/
def Obligations.LoadBaseOffset : Prop :=
  (∀ w : Word, w &&& 0xF000#16 = 0x6000#16 → decode w = .ldr (regOf w 9) (regOf w 6) (lowOf 6 w)) ∧
  ∀ (dr base : RegNum) (off6 : BitVec 6) (s : State), ∃ u v t,
    ReadAt (s.reg base + signedWord off6) s u v ∧ exec (.ldr dr base off6) s = .next t ∧
    t.reg dr = v ∧ CondMatches t.cond v ∧ DefinesOnly dr u t

/-- R143: LEA: its words, the address itself in DR modulo 2^16, COND, no memory access. -/
def Obligations.LoadEffectiveAddress : Prop :=
  (∀ w : Word, w &&& 0xF000#16 = 0xE000#16 → decode w = .lea (regOf w 9) (lowOf 9 w)) ∧
  ∀ (dr : RegNum) (off9 : BitVec 9) (s : State), ∃ t, exec (.lea dr off9) s = .next t ∧
    ((t.reg dr).toNat : Int) = (s.pc.toNat + off9.toInt) % 65536 ∧
    CondMatches t.cond (t.reg dr) ∧ DefinesOnly dr s t

/-- R144: ST: its words, and R[SR] stored at the PC-relative address with nothing else changed. -/
def Obligations.StorePcRelative : Prop :=
  (∀ w : Word, w &&& 0xF000#16 = 0x3000#16 → decode w = .st (regOf w 9) (lowOf 9 w)) ∧
  ∀ (sr : RegNum) (off9 : BitVec 9) (s : State), ∃ t, exec (.st sr off9) s = .next t ∧
    Stores (s.pc + signedWord off9) (s.reg sr) s t

/-- R145: STI: its words, the pointer read (which may poll), and R[SR] stored at the pointer. -/
def Obligations.StoreIndirect : Prop :=
  (∀ w : Word, w &&& 0xF000#16 = 0xB000#16 → decode w = .sti (regOf w 9) (lowOf 9 w)) ∧
  ∀ (sr : RegNum) (off9 : BitVec 9) (s : State), ∃ u p t,
    ReadAt (s.pc + signedWord off9) s u p ∧ exec (.sti sr off9) s = .next t ∧ Stores p (s.reg sr) u t

/-- R146: STR: its words, and R[SR] stored at base + offset. -/
def Obligations.StoreBaseOffset : Prop :=
  (∀ w : Word, w &&& 0xF000#16 = 0x7000#16 → decode w = .str (regOf w 9) (regOf w 6) (lowOf 6 w)) ∧
  ∀ (sr base : RegNum) (off6 : BitVec 6) (s : State), ∃ t, exec (.str sr base off6) s = .next t ∧
    Stores (s.reg base + signedWord off6) (s.reg sr) s t

/-- R148: the LDI round trip, from any three places in a program. The premise that A and P differ is the model's: with
A = P the second ST replaces the pointer (log 29). -/
def Obligations.LdiRoundTrip : Prop :=
  ∀ (sr1 sr2 dr : RegNum) (off1 off2 off3 : BitVec 9) (pc2 pc3 : Word) (s t1 t2 t3 : State),
    let A := s.pc + signedWord off1
    let P := s.reg sr1
    A ≠ s.params.kbsrAddr → P ≠ s.params.kbsrAddr → A ≠ P →
    exec (.st sr1 off1) s = .next t1 →
    pc2 + signedWord off2 = P → exec (.st sr2 off2) (t1.setPc pc2) = .next t2 →
    pc3 + signedWord off3 = A → exec (.ldi dr off3) (t2.setPc pc3) = .next t3 →
    t3.reg dr = s.reg sr2

/-! ## The step (70_reset_and_hazards.md R243) -/

/-- R243: at a boundary, with no cancel present and no breakpoint at PC, the step is the fetch (which polls at KBSR_ADDR),
the PC increment and the execution of the decoded word; at a PC other than KBSR_ADDR that is `exec` of the instruction
the stored word decodes to. That the fetch polls is the spec's choice D11 (log 20). -/
def Obligations.StepRunsTheDecodedInstruction : Prop :=
  ∀ s : State, AtBoundary s → ¬ HitsBreakpoint s s.pc →
    (∃ w u, ReadAt s.pc { s with cancelAfter := passPoint s.cancelAfter } u w ∧
      step s = exec (decode w) { u with pc := s.pc + 1#16 }) ∧
    ∀ i : Instr, i.wellFormed = true → s.pc ≠ s.params.kbsrAddr → decode (s.word s.pc) = i →
      step s = exec i { s with pc := s.pc + 1#16, cancelAfter := passPoint s.cancelAfter }

/-- R56, R144: an ST with offset 0 overwrites the next instruction, and the very next step executes the stored word
(the spec's choice D19). -/
def Obligations.StoreIsSeenByTheNextFetch : Prop :=
  ∀ (sr : RegNum) (s t : State), AtBoundary s → ¬ HitsBreakpoint s s.pc → s.pc ≠ s.params.kbsrAddr →
    exec (.st sr 0#9) s = .next t →
    step t = exec (decode (s.reg sr)) { t with pc := s.pc + 1#16, cancelAfter := passPoint s.cancelAfter }

/-- R219, R11: at a breakpoint bp_hit is signalled and the diagnostic written, on every path, and the block holds until
bp_confirm; nothing else changes but by the fetch; with the confirmation the fetched word is executed, and a cancel that is
due at the wait ends the run there. The order is the spec's choice D29 (log 25), the cancel D17 (log 11); the hold as a state
and the list of the signals are the model's (logs 10, 12, 31). -/
def Obligations.BreakpointHoldsUntilConfirmed : Prop :=
  ∀ s : State, s.runState = .running → s.phase = .boundary → HitsBreakpoint s s.pc →
    (s.cancelAfter = none → ∃ w u, ReadAt s.pc s u w ∧
      (s.confirms = 0 →
        ∃ t, step s = .next t ∧
          t = { u with
            pc := s.pc + 1#16, phase := .bpConfirm s.pc w, bpHits := s.bpHits ++ [(s.pc, w)],
            output := s.output ++ Config.bpDiagnostic s.pc w } ∧
          step t = .next t ∧
          ∀ n, step { t with confirms := n + 1 } = exec (decode w)
            { u with
              pc := s.pc + 1#16, bpHits := s.bpHits ++ [(s.pc, w)],
              output := s.output ++ Config.bpDiagnostic s.pc w, confirms := n }) ∧
      ∀ n, s.confirms = n + 1 → step s = exec (decode w)
        { u with
          pc := s.pc + 1#16, bpHits := s.bpHits ++ [(s.pc, w)],
          output := s.output ++ Config.bpDiagnostic s.pc w, confirms := n }) ∧
    (s.cancelAfter = some 1 → ∃ w u, ReadAt s.pc s u w ∧ step s = .next
      { u with
        pc := s.pc + 1#16, bpHits := s.bpHits ++ [(s.pc, w)], output := s.output ++ Config.bpDiagnostic s.pc w,
        runState := .cancelled, cancelAfter := none })

/-- R219 "strictly observational": a step through a confirmed breakpoint leaves what the same step without the debugger
leaves, but for the bp_hit signal (R11, log 31) and the diagnostic bytes in the output. -/
def Obligations.BreakpointIsObservational : Prop :=
  ∀ (s t0 : State) (n : Nat), s.runState = .running → s.phase = .boundary → s.cancelAfter = none →
    HitsBreakpoint s s.pc → s.confirms = n + 1 →
    step { s with debugEnabled := false, confirms := n } = .next t0 →
    ∃ w ext t, ExecutesWord s w ∧ t0.output = s.output ++ ext ∧ step s = .next t ∧
      t = { t0 with
        debugEnabled := true, bpHits := s.bpHits ++ [(s.pc, w)],
        output := s.output ++ Config.bpDiagnostic s.pc w ++ ext }

/-! ## TRAP (43_trap.md) -/

/-- R171: GETC, from every state: an answer of the host is stored in R0 with COND; with no answer the block holds, R7
written and R0 not; a cancel present at the hold ends the run there (60_exceptions.md R213). The value is the spec's choice
D8 (log 19), the cancel D17 (logs 11, 25); the hold as a state is the model's (logs 9, 12). -/
def Obligations.GetcReadsOneCharacter : Prop :=
  ∀ s : State,
    (∀ r rest, s.cancelAfter ≠ some 0 → s.reads = r :: rest →
      ∃ t, exec .getc s = .next t ∧ TrapFrame s t ∧ ReadGives s.params r (t.reg 0) ∧ CondMatches t.cond (t.reg 0) ∧
        t.reads = rest ∧ t.output = s.output ∧ t.runState = s.runState ∧ t.phase = .boundary ∧
        t.cancelAfter = passPoint s.cancelAfter) ∧
    (s.cancelAfter ≠ some 0 → s.reads = [] →
      ∃ t, exec .getc s = .next t ∧ OutputFrame s t ∧ t.output = s.output ∧ t.runState = s.runState ∧
        t.phase = .getcRead ∧ t.cancelAfter = passPoint s.cancelAfter) ∧
    (s.cancelAfter = some 0 →
      ∃ t, exec .getc s = .next t ∧ OutputFrame s t ∧ t.output = s.output ∧ t.runState = .cancelled ∧ t.phase = s.phase)

/-- R174: IN, from every state: the prompt, then as GETC, with the echo of the value's low byte before R0 is written
(the spec's choices D7, D8 and D26, logs 16, 19; holds and cancel as in GETC). -/
def Obligations.InPromptsReadsAndEchoes : Prop :=
  ∀ s : State,
    (∀ r rest, s.cancelAfter ≠ some 0 → s.reads = r :: rest →
      ∃ t, exec .in_ s = .next t ∧ TrapFrame s t ∧ ReadGives s.params r (t.reg 0) ∧ CondMatches t.cond (t.reg 0) ∧
        t.reads = rest ∧ t.output = s.output ++ s.params.inPrompt ++ [BitVec.ofNat 8 (bitsOf (t.reg 0) 7 0)] ∧
        t.runState = s.runState ∧ t.phase = .boundary ∧ t.cancelAfter = passPoint s.cancelAfter) ∧
    (s.cancelAfter ≠ some 0 → s.reads = [] →
      ∃ t, exec .in_ s = .next t ∧ OutputFrame s t ∧ t.output = s.output ++ s.params.inPrompt ∧
        t.runState = s.runState ∧ t.phase = .inRead ∧ t.cancelAfter = passPoint s.cancelAfter) ∧
    (s.cancelAfter = some 0 →
      ∃ t, exec .in_ s = .next t ∧ OutputFrame s t ∧ t.output = s.output ++ s.params.inPrompt ∧
        t.runState = .cancelled ∧ t.phase = s.phase)

/-- R222: a held GETC or IN waits, unchanged, until the host answers, and with the answer ends exactly as it would have
ended had the answer been there at once (the hold as a state is the model's: logs 9, 12). -/
def Obligations.HeldReadWaitsAndResumes : Prop :=
  ∀ (i : Instr) (s t : State), i = .getc ∨ i = .in_ → s.runState = .running → s.cancelAfter = none → s.reads = [] →
    exec i s = .next t →
    step t = .next t ∧
    ∀ r rest, step { t with reads := r :: rest } = exec i { s with reads := r :: rest }

/-- R172: OUT writes bits [7:0] of R0 and nothing else but the link. -/
def Obligations.OutWritesTheLowByte : Prop :=
  ∀ s : State, ∃ t, exec .out s = .next t ∧ OutputFrame s t ∧
    t.output = s.output ++ [BitVec.ofNat 8 (bitsOf (s.reg 0) 7 0)] ∧
    t.runState = s.runState ∧ t.phase = s.phase ∧ t.cancelAfter = s.cancelAfter

/-- R173: PUTS writes the low byte of each word of the string at R0 up to the zero word, with wrapping addresses, when no
cancel lands between two of the bytes (the spec's choices D12 and D13, log 28; the cancel D17, log 27). -/
def Obligations.PutsWritesTheString : Prop :=
  ∀ (s : State) (ws : List Word), StringAt s (s.reg 0) ws → (∀ n, s.cancelAfter = some n → ws.length - 1 ≤ n) →
    ∃ t, exec .puts s = .next t ∧ OutputFrame s t ∧ t.output = s.output ++ putsBytes ws ∧
      t.runState = s.runState ∧ t.phase = .boundary ∧ t.cancelAfter = s.cancelAfter.map (· - (ws.length - 1))

/-- R175: PUTSP writes the low byte of each word and its high byte if that is not zero (D12, D13, D17 as in PUTS). -/
def Obligations.PutspWritesThePackedString : Prop :=
  ∀ (s : State) (ws : List Word), StringAt s (s.reg 0) ws →
    (∀ n, s.cancelAfter = some n → (putspBytes ws).length - 1 ≤ n) →
    ∃ t, exec .putsp s = .next t ∧ OutputFrame s t ∧ t.output = s.output ++ putspBytes ws ∧
      t.runState = s.runState ∧ t.phase = .boundary ∧
      t.cancelAfter = s.cancelAfter.map (· - ((putspBytes ws).length - 1))

/-- R213: a cancel between two output bytes of PUTS or PUTSP ends the run there: the bytes before it stay written, R7 is
written, nothing more is (the spec's choice D17, log 27). -/
def Obligations.CancelLandsBetweenStringBytes : Prop :=
  ∀ (s : State) (ws : List Word) (k : Nat), StringAt s (s.reg 0) ws → s.cancelAfter = some k →
    (k + 1 < ws.length → ∃ t, exec .puts s = .next t ∧ OutputFrame s t ∧
      t.output = s.output ++ (putsBytes ws).take (k + 1) ∧ t.runState = .cancelled) ∧
    (k + 1 < (putspBytes ws).length → ∃ t, exec .putsp s = .next t ∧ OutputFrame s t ∧
      t.output = s.output ++ (putspBytes ws).take (k + 1) ∧ t.runState = .cancelled)

/-- R222: over a memory with no zero word PUTS never ends: after any number of further steps the block is still RUNNING in
the same service, a whole lap of bytes longer each step (one lap a step is the model's choice, log 13). -/
def Obligations.PutsWithoutZeroWordNeverEnds : Prop :=
  ∀ s : State, s.runState = .running → s.cancelAfter = none → (∀ a, s.word a ≠ 0x0000#16) →
    ∃ t, exec .puts s = .next t ∧ ∀ n, ∃ u, Host.Core.run Sys2Proof.core n t = .next u ∧
      u.runState = .running ∧ u.phase = .puts (s.reg 0) ∧ u.output.length = s.output.length + 65536 * (n + 1)

/-- R176: HALT writes the halt notice and sets RunState to HALTED. -/
def Obligations.HaltStopsCleanly : Prop :=
  ∀ s : State, ∃ t, exec .halt s = .next t ∧ OutputFrame s t ∧ t.output = s.output ++ s.params.haltNotice ∧
    t.runState = .halted ∧ t.phase = s.phase ∧ t.cancelAfter = s.cancelAfter

/-- R177, R6: a TRAP with any other vector writes R7 and nothing else under the policy noop, and is refused by name under
the policy refuse (the spec's choice D5, log 17). -/
def Obligations.UnknownTrapVectors : Prop :=
  ∀ (v : Byte) (s : State), v.toNat < 0x20 ∨ 0x25 < v.toNat →
    (s.params.unknownTrapPolicy = .noop →
      ∃ t, exec (.trap v) s = .next t ∧ OutputFrame s t ∧ t.output = s.output ∧ t.runState = s.runState ∧
        t.phase = s.phase ∧ t.cancelAfter = s.cancelAfter) ∧
    (s.params.unknownTrapPolicy = .refuse → exec (.trap v) s = .refused (.unknownTrap v))

/-- R170: the words of TRAP, bits [11:8] ignored: the six vectors select the services, and the term TRAP v dispatches a
service's vector to the service (the services as instructions of their own are the model's choice, log 5). -/
def Obligations.TrapDispatchesByVector : Prop :=
  (∀ w : Word, w &&& 0xF000#16 = 0xF000#16 →
    (bitsOf w 7 0 = 0x20 → decode w = .getc) ∧ (bitsOf w 7 0 = 0x21 → decode w = .out) ∧
    (bitsOf w 7 0 = 0x22 → decode w = .puts) ∧ (bitsOf w 7 0 = 0x23 → decode w = .in_) ∧
    (bitsOf w 7 0 = 0x24 → decode w = .putsp) ∧ (bitsOf w 7 0 = 0x25 → decode w = .halt) ∧
    (bitsOf w 7 0 < 0x20 ∨ 0x25 < bitsOf w 7 0 → decode w = .trap (lowOf 8 w))) ∧
  ∀ s : State, exec (.trap 0x20#8) s = exec .getc s ∧ exec (.trap 0x21#8) s = exec .out s ∧
    exec (.trap 0x22#8) s = exec .puts s ∧ exec (.trap 0x23#8) s = exec .in_ s ∧
    exec (.trap 0x24#8) s = exec .putsp s ∧ exec (.trap 0x25#8) s = exec .halt s

/-! ## Reserved opcodes (44_reserved.md) -/

/-- R200, R202: RTI, every word of it: RunState FATAL, FatalInfo the cause, the fetch address and the word, and nothing
else. The fields of FatalInfo and what else stands at FATAL (PC included) are the spec's choice D24 (log 15). -/
def Obligations.RtiIsFatal : Prop :=
  (∀ w : Word, w &&& 0xF000#16 = 0x8000#16 → decode w = .rti (lowOf 12 w) ∧ rtiWord (lowOf 12 w) = w) ∧
  ∀ (low : BitVec 12) (s : State), ∃ t, exec (.rti low) s = .next t ∧
    t.runState = .fatal ∧ (∃ f, t.fatalInfo = some f ∧ f.cause = .rti ∧ f.addr + 1#16 = s.pc ∧ f.word = rtiWord low) ∧
    t = { s with runState := t.runState, fatalInfo := t.fatalInfo }

/-- R201, R202: RES, likewise, with the spec's choice D24 (log 15). -/
def Obligations.ResIsFatal : Prop :=
  (∀ w : Word, w &&& 0xF000#16 = 0xD000#16 → decode w = .res (lowOf 12 w) ∧ resWord (lowOf 12 w) = w) ∧
  ∀ (low : BitVec 12) (s : State), ∃ t, exec (.res low) s = .next t ∧
    t.runState = .fatal ∧ (∃ f, t.fatalInfo = some f ∧ f.cause = .res ∧ f.addr + 1#16 = s.pc ∧ f.word = resWord low) ∧
    t = { s with runState := t.runState, fatalInfo := t.fatalInfo }

/-! ## The whole machine -/

/-- R22: an instruction writes no general register but those of the table. -/
def Obligations.OnlyListedRegistersAreWritten : Prop :=
  ∀ (i : Instr) (s t : State) (r : RegNum), exec i s = .next t → r ∉ i.mayWrite → t.reg r = s.reg r

/-- R26: COND is changed only by the instructions that call update_flags. -/
def Obligations.OnlyFlagSettersChangeCond : Prop :=
  ∀ (i : Instr) (s t : State), exec i s = .next t → i.maySetFlags = false → t.cond = s.cond

/-- R24: after the fetch increment only BR, JMP, JSR and JSRR write PC; TRAP does not. -/
def Obligations.OnlyControlWritesPc : Prop :=
  ∀ (i : Instr) (s t : State), exec i s = .next t → i.mayJump = false → t.pc = s.pc

/-- R48: only the stores write memory, but for the keyboard words, which a poll writes; an instruction that neither stores
nor reads through MemRead leaves every word. -/
def Obligations.OnlyStoresWriteMemory : Prop :=
  ∀ (i : Instr) (s t : State) (a : Word), exec i s = .next t → i.stores = false →
    (i.readsMemory = false ∨ (a ≠ s.params.kbsrAddr ∧ a ≠ s.params.kbdrAddr)) → t.word a = s.word a

/-- R29, R210: RunState after reset, and the only ways a step leaves RUNNING: HALTED by a HALT word, FATAL by an RTI or RES
word, which FatalInfo then records, CANCELLED by the host's cancel. What FatalInfo records is the spec's choice D24 (log 15); that
a step is taken only from RUNNING is D23 (R12, log 14). -/
def Obligations.RunStateTransitions : Prop :=
  State.reset.runState = .running ∧
  ∀ s t : State, step s = .next t → s.runState = .running ∧
    (t.runState = .halted → ∃ w, ExecutesWord s w ∧ decode w = .halt) ∧
    (t.runState = .fatal → ∃ w f, ExecutesWord s w ∧ t.fatalInfo = some f ∧ f.word = w ∧
      ((f.cause = .rti ∧ opcodeField w = 0x8#4) ∨ (f.cause = .res ∧ opcodeField w = 0xD#4))) ∧
    (t.runState = .cancelled → s.cancelAfter ≠ none)

/-- R12: a RUNNING block always takes a step (with the policy refuse, unless it refuses an unknown vector), and a block that
is not RUNNING takes none (D5, D17, D23; logs 12, 14, 17). -/
def Obligations.RunningBlockAlwaysSteps : Prop :=
  (∀ s : State, s.runState = .running →
    (∃ t, step s = .next t) ∨
      (s.params.unknownTrapPolicy = .refuse ∧ ∃ w v, ExecutesWord s w ∧ decode w = .trap v ∧
        step s = .refused (.unknownTrap v))) ∧
  ∀ s : State, s.runState ≠ .running → step s = .fault (.terminal s.runState)

/-- R213: a cancel present at a boundary, in a hold, or before the next byte of an endless PUTS or PUTSP (which stands at a
non-zero word) ends the run before anything else at that point, and what was done stands (D17, logs 11, 13, 27). -/
def Obligations.CancelEndsTheRunAtOnce : Prop :=
  ∀ s : State, s.runState = .running → s.cancelAfter = some 0 →
    (∀ a, s.phase = .puts a ∨ s.phase = .putsp a → s.word a ≠ 0x0000#16) →
    ∃ t, step s = .next t ∧ t = { s with runState := .cancelled, cancelAfter := t.cancelAfter }

/-- R225, R11: output bytes and bp_hit signals are only ever appended, a signal only in a step that hits a breakpoint, and
the host's answers are taken in order, from the front (the lists are the model's: logs 8, 9, 10, 26, 31). -/
def Obligations.OutputGrowsAndInputIsConsumed : Prop :=
  ∀ s t : State, step s = .next t →
    s.output <+: t.output ∧ t.polls <:+ s.polls ∧ t.reads <:+ s.reads ∧ t.confirms ≤ s.confirms ∧
    s.pollDraw ≤ t.pollDraw ∧ s.bpHits <+: t.bpHits ∧ (¬ HitsBreakpoint s s.pc → t.bpHits = s.bpHits)

/-- R31: DebugEnabled and Breakpoints, and the parameters of R6, are never written while the block runs. -/
def Obligations.ConfigurationIsNeverWritten : Prop :=
  ∀ s t : State, step s = .next t → SameConfig s t

/-- Headline: every step keeps the invariant of Safety.lean: memory canonical, FatalInfo empty until FATAL and a true
record after (R30, R202), a breakpoint hold only at a breakpoint right after its fetch, signalled last (R219, R11). What FatalInfo
records is the spec's choice D24 (log 15), the list of signals the model's (log 31). -/
def Obligations.StepKeepsTheInvariant : Prop :=
  ∀ s t : State, s.Inv → step s = .next t → t.Inv

/-- The invariant holds after reset, with any images and debug configuration. -/
def Obligations.BootMeetsTheInvariant : Prop :=
  State.reset.Inv ∧ ∀ (imgs : List Image) (debug : Bool) (bps : List Word), (boot imgs debug bps).Inv

/-- R240, R241: what reset leaves: registers 0, PC 0x3000, COND ZERO, RUNNING, FatalInfo empty, debug as configured, and
0x0000 in every word no image covers (the spec's choice D14, log 7). -/
def Obligations.ResetValues : Prop :=
  ∀ (imgs : List Image) (debug : Bool) (bps : List Word),
    let s := boot imgs debug bps
    (∀ r, s.reg r = 0x0000#16) ∧ s.pc = 0x3000#16 ∧ s.cond = .zero ∧ s.runState = .running ∧ s.fatalInfo = none ∧
    s.debugEnabled = debug ∧ s.breakpoints = bps ∧
    (∀ a : Word, (∀ img ∈ imgs, ∀ k : Nat, k < img.words.length → img.origin.toNat + k ≠ a.toNat) →
      s.word a = 0x0000#16) ∧
    ∀ a, State.reset.word a = 0x0000#16
end

