-- ==== Sys2Proof/Laws/Decode.lean ====
section
/-! SUPPORT. The fields of a word built in a format of 30_encoding.md R76, the opcode map read both ways, and the decoder's
fields as the numbers R7 reads. -/

namespace Sys2Proof

/-! ## Fields of a concatenation -/

theorem extract_append_high {n m : Nat} (x : BitVec n) (y : BitVec m) (lo len : Nat) :
    (x ++ y).extractLsb' (m + lo) len = x.extractLsb' lo len := by
  apply BitVec.eq_of_getLsbD_eq
  intro k hk
  rw [BitVec.getLsbD_extractLsb', BitVec.getLsbD_extractLsb', BitVec.getLsbD_append, if_neg (by omega)]
  congr 3
  omega

theorem extract_append_low {n m : Nat} (x : BitVec n) (y : BitVec m) (lo len : Nat) (h : lo + len ≤ m) :
    (x ++ y).extractLsb' lo len = y.extractLsb' lo len := by
  apply BitVec.eq_of_getLsbD_eq
  intro k hk
  rw [BitVec.getLsbD_extractLsb', BitVec.getLsbD_extractLsb', BitVec.getLsbD_append, if_pos (by omega)]

theorem extract_append_exact {n m : Nat} (x : BitVec n) (y : BitVec m) : (x ++ y).extractLsb' m n = x := by
  rw [show (x ++ y).extractLsb' m n = (x ++ y).extractLsb' (m + 0) n from rfl, extract_append_high]
  exact BitVec.extractLsb'_eq_self

/-! ## The opcode map -/

@[simp] theorem Opcode.ofCode_code (op : Opcode) : Opcode.ofCode op.code = op := by
  cases op <;> rfl

@[simp] theorem Opcode.code_ofCode (b : BitVec 4) : (Opcode.ofCode b).code = b := by
  revert b
  decide

theorem decodeTrap_of_not_service (v : Byte) (h : isServiceVector v = false) : decodeTrap v = .trap v := by
  revert v
  decide

/-! ## The formats -/

variable (op : Opcode) (a b : BitVec 3) (c6 : BitVec 6) (c9 : BitVec 9) (c12 : BitVec 12)

@[simp] theorem opcodeField_format336 : opcodeField (format336 op a b c6) = op.code := by
  refine (extract_append_high (op.code ++ a ++ b) c6 6 4).trans ?_
  refine (extract_append_high (op.code ++ a) b 3 4).trans ?_
  exact extract_append_exact op.code a

@[simp] theorem opcodeField_format39 : opcodeField (format39 op a c9) = op.code :=
  (extract_append_high (op.code ++ a) c9 3 4).trans (extract_append_exact op.code a)

@[simp] theorem opcodeField_format12 : opcodeField (format12 op c12) = op.code :=
  extract_append_exact op.code c12

@[simp] theorem regField_format336_nine : regField (format336 op a b c6) 9 = a.toFin :=
  congrArg BitVec.toFin ((extract_append_high (op.code ++ a ++ b) c6 3 3).trans
    ((extract_append_high (op.code ++ a) b 0 3).trans ((extract_append_low op.code a 0 3 (by decide)).trans
      BitVec.extractLsb'_eq_self)))

@[simp] theorem regField_format336_six : regField (format336 op a b c6) 6 = b.toFin :=
  congrArg BitVec.toFin ((extract_append_high (op.code ++ a ++ b) c6 0 3).trans
    ((extract_append_low (op.code ++ a) b 0 3 (by decide)).trans BitVec.extractLsb'_eq_self))

@[simp] theorem regField_format336_zero : regField (format336 op a b c6) 0 = (c6.extractLsb' 0 3).toFin :=
  congrArg BitVec.toFin (extract_append_low (op.code ++ a ++ b) c6 0 3 (by decide))

@[simp] theorem imm5Field_format336 : imm5Field (format336 op a b c6) = c6.extractLsb' 0 5 :=
  extract_append_low (op.code ++ a ++ b) c6 0 5 (by decide)

@[simp] theorem offset6Field_format336 : offset6Field (format336 op a b c6) = c6 :=
  (extract_append_low (op.code ++ a ++ b) c6 0 6 (by decide)).trans BitVec.extractLsb'_eq_self

theorem getLsbD_format336_low (k : Nat) (h : k < 6) : (format336 op a b c6).getLsbD k = c6.getLsbD k := by
  refine (BitVec.getLsbD_append (x := op.code ++ a ++ b) (y := c6) (i := k)).trans ?_
  rw [if_pos h]

theorem getLsbD_format336_high (k : Nat) (h : k < 3) : (format336 op a b c6).getLsbD (9 + k) = a.getLsbD k := by
  refine (BitVec.getLsbD_append (x := op.code ++ a ++ b) (y := c6) (i := 9 + k)).trans ?_
  rw [if_neg (by omega), BitVec.getLsbD_append, if_neg (by omega), BitVec.getLsbD_append, if_pos (by omega)]
  congr 1
  omega

@[simp] theorem regField_format39_nine : regField (format39 op a c9) 9 = a.toFin :=
  congrArg BitVec.toFin ((extract_append_high (op.code ++ a) c9 0 3).trans
    ((extract_append_low op.code a 0 3 (by decide)).trans BitVec.extractLsb'_eq_self))

@[simp] theorem pcOffset9Field_format39 : pcOffset9Field (format39 op a c9) = c9 :=
  (extract_append_low (op.code ++ a) c9 0 9 (by decide)).trans BitVec.extractLsb'_eq_self

theorem getLsbD_format39_high (k : Nat) (h : k < 3) : (format39 op a c9).getLsbD (9 + k) = a.getLsbD k := by
  refine (BitVec.getLsbD_append (x := op.code ++ a) (y := c9) (i := 9 + k)).trans ?_
  rw [if_neg (by omega), BitVec.getLsbD_append, if_pos (by omega)]
  congr 1
  omega

@[simp] theorem low12_format12 : (format12 op c12).extractLsb' 0 12 = c12 :=
  (extract_append_low op.code c12 0 12 (by decide)).trans BitVec.extractLsb'_eq_self

@[simp] theorem pcOffset11Field_format12 : pcOffset11Field (format12 op c12) = c12.extractLsb' 0 11 :=
  extract_append_low op.code c12 0 11 (by decide)

@[simp] theorem trapVectorField_format12 : trapVectorField (format12 op c12) = c12.extractLsb' 0 8 :=
  extract_append_low op.code c12 0 8 (by decide)

theorem getLsbD_format12 (k : Nat) (h : k < 12) : (format12 op c12).getLsbD k = c12.getLsbD k := by
  refine (BitVec.getLsbD_append (x := op.code) (y := c12) (i := k)).trans ?_
  rw [if_pos h]

@[simp] theorem trapVectorField_trapWord (v : Byte) : trapVectorField (trapWord v) = v :=
  (trapVectorField_format12 .trap (0#4 ++ v)).trans
    ((extract_append_low 0#4 v 0 8 (by decide)).trans BitVec.extractLsb'_eq_self)

@[simp] theorem regBits_toFin (r : RegNum) : (regBits r).toFin = r := rfl

/-! ## The decoder's fields, read as R7 reads them -/

open Sys2Proof.Machine

theorem regField_eq_regOf (w : Word) (lo : Nat) : regField w lo = regOf w lo := by
  apply Fin.ext
  have h : lo + 2 + 1 - lo = 3 := by omega
  simp [regField, regOf, bitsOf, BitVec.extractLsb', Nat.shiftRight_eq_div_pow, Fin.ofNat, h]

theorem imm5Field_eq_lowOf (w : Word) : imm5Field w = lowOf 5 w := by
  apply BitVec.eq_of_toNat_eq
  simp [imm5Field, lowOf]

theorem offset6Field_eq_lowOf (w : Word) : offset6Field w = lowOf 6 w := by
  apply BitVec.eq_of_toNat_eq
  simp [offset6Field, lowOf]

theorem pcOffset9Field_eq_lowOf (w : Word) : pcOffset9Field w = lowOf 9 w := by
  apply BitVec.eq_of_toNat_eq
  simp [pcOffset9Field, lowOf]

theorem pcOffset11Field_eq_lowOf (w : Word) : pcOffset11Field w = lowOf 11 w := by
  apply BitVec.eq_of_toNat_eq
  simp [pcOffset11Field, lowOf]

theorem trapVectorField_eq_lowOf (w : Word) : trapVectorField w = lowOf 8 w := by
  apply BitVec.eq_of_toNat_eq
  simp [trapVectorField, lowOf]

theorem low12_eq_lowOf (w : Word) : w.extractLsb' 0 12 = lowOf 12 w := by
  apply BitVec.eq_of_toNat_eq
  simp [lowOf]

theorem getLsbD_eq_bitsOf (w : Word) (k : Nat) : w.getLsbD k = (bitsOf w k k == 1) := by
  have h : k + 1 - k = 1 := by omega
  simp only [bitsOf, BitVec.getLsbD, Nat.testBit, Nat.shiftRight_eq_div_pow, Nat.one_and_eq_mod_two, h, pow_one]
  rcases Nat.mod_two_eq_zero_or_one (w.toNat / 2 ^ k) with h | h <;> simp [h]

/-- The opcode field is what the mask 0xF000 keeps. -/
theorem opcodeField_of_masked (w c : Word) (h : w &&& 0xF000#16 = c) : opcodeField w = opcodeField c := by
  rw [← h, opcodeField, opcodeField]
  apply BitVec.eq_of_getLsbD_eq
  intro k hk
  simp only [BitVec.getLsbD_extractLsb', BitVec.getLsbD_and]
  interval_cases k <;> simp

end Sys2Proof
end

