-- ==== Sys2Proof/Laws/State.lean ====
section
/-! SUPPORT. One lemma per field per update, each true by rfl, so that no proof unfolds a record update. `State.reg` and
`State.word` are treated as fields. -/

namespace Sys2Proof.Machine

@[simp] theorem outFlush_eq (s : State) : outFlush s = s := rfl

@[simp] theorem State.placeAtPc_eq (s : State) (w : Word) : s.placeAtPc w = s.memWrite s.pc w := rfl

@[simp] theorem State.setReg_regs (s : State) (r : RegNum) (v : Word) : (s.setReg r v).regs = s.regs.set r v := rfl
@[simp] theorem State.setReg_pc (s : State) (r : RegNum) (v : Word) : (s.setReg r v).pc = s.pc := rfl
@[simp] theorem State.setReg_cond (s : State) (r : RegNum) (v : Word) : (s.setReg r v).cond = s.cond := rfl
@[simp] theorem State.setReg_mem (s : State) (r : RegNum) (v : Word) : (s.setReg r v).mem = s.mem := rfl
@[simp] theorem State.setReg_runState (s : State) (r : RegNum) (v : Word) : (s.setReg r v).runState = s.runState := rfl
@[simp] theorem State.setReg_fatalInfo (s : State) (r : RegNum) (v : Word) : (s.setReg r v).fatalInfo = s.fatalInfo := rfl
@[simp] theorem State.setReg_debugEnabled (s : State) (r : RegNum) (v : Word) : (s.setReg r v).debugEnabled = s.debugEnabled := rfl
@[simp] theorem State.setReg_breakpoints (s : State) (r : RegNum) (v : Word) : (s.setReg r v).breakpoints = s.breakpoints := rfl
@[simp] theorem State.setReg_bpHits (s : State) (r : RegNum) (v : Word) : (s.setReg r v).bpHits = s.bpHits := rfl
@[simp] theorem State.setReg_phase (s : State) (r : RegNum) (v : Word) : (s.setReg r v).phase = s.phase := rfl
@[simp] theorem State.setReg_output (s : State) (r : RegNum) (v : Word) : (s.setReg r v).output = s.output := rfl
@[simp] theorem State.setReg_polls (s : State) (r : RegNum) (v : Word) : (s.setReg r v).polls = s.polls := rfl
@[simp] theorem State.setReg_pollDraw (s : State) (r : RegNum) (v : Word) : (s.setReg r v).pollDraw = s.pollDraw := rfl
@[simp] theorem State.setReg_reads (s : State) (r : RegNum) (v : Word) : (s.setReg r v).reads = s.reads := rfl
@[simp] theorem State.setReg_confirms (s : State) (r : RegNum) (v : Word) : (s.setReg r v).confirms = s.confirms := rfl
@[simp] theorem State.setReg_cancelAfter (s : State) (r : RegNum) (v : Word) : (s.setReg r v).cancelAfter = s.cancelAfter := rfl
@[simp] theorem State.setReg_params (s : State) (r : RegNum) (v : Word) : (s.setReg r v).params = s.params := rfl
@[simp] theorem State.setReg_word (s : State) (r : RegNum) (v : Word) (x : Word) : (s.setReg r v).word x = s.word x := rfl

@[simp] theorem State.setPc_regs (s : State) (a : Word) : (s.setPc a).regs = s.regs := rfl
@[simp] theorem State.setPc_pc (s : State) (a : Word) : (s.setPc a).pc = a := rfl
@[simp] theorem State.setPc_cond (s : State) (a : Word) : (s.setPc a).cond = s.cond := rfl
@[simp] theorem State.setPc_mem (s : State) (a : Word) : (s.setPc a).mem = s.mem := rfl
@[simp] theorem State.setPc_runState (s : State) (a : Word) : (s.setPc a).runState = s.runState := rfl
@[simp] theorem State.setPc_fatalInfo (s : State) (a : Word) : (s.setPc a).fatalInfo = s.fatalInfo := rfl
@[simp] theorem State.setPc_debugEnabled (s : State) (a : Word) : (s.setPc a).debugEnabled = s.debugEnabled := rfl
@[simp] theorem State.setPc_breakpoints (s : State) (a : Word) : (s.setPc a).breakpoints = s.breakpoints := rfl
@[simp] theorem State.setPc_bpHits (s : State) (a : Word) : (s.setPc a).bpHits = s.bpHits := rfl
@[simp] theorem State.setPc_phase (s : State) (a : Word) : (s.setPc a).phase = s.phase := rfl
@[simp] theorem State.setPc_output (s : State) (a : Word) : (s.setPc a).output = s.output := rfl
@[simp] theorem State.setPc_polls (s : State) (a : Word) : (s.setPc a).polls = s.polls := rfl
@[simp] theorem State.setPc_pollDraw (s : State) (a : Word) : (s.setPc a).pollDraw = s.pollDraw := rfl
@[simp] theorem State.setPc_reads (s : State) (a : Word) : (s.setPc a).reads = s.reads := rfl
@[simp] theorem State.setPc_confirms (s : State) (a : Word) : (s.setPc a).confirms = s.confirms := rfl
@[simp] theorem State.setPc_cancelAfter (s : State) (a : Word) : (s.setPc a).cancelAfter = s.cancelAfter := rfl
@[simp] theorem State.setPc_params (s : State) (a : Word) : (s.setPc a).params = s.params := rfl
@[simp] theorem State.setPc_reg (s : State) (a : Word) (q : RegNum) : (s.setPc a).reg q = s.reg q := rfl
@[simp] theorem State.setPc_word (s : State) (a : Word) (x : Word) : (s.setPc a).word x = s.word x := rfl

@[simp] theorem State.memWrite_regs (s : State) (a v : Word) : (s.memWrite a v).regs = s.regs := rfl
@[simp] theorem State.memWrite_pc (s : State) (a v : Word) : (s.memWrite a v).pc = s.pc := rfl
@[simp] theorem State.memWrite_cond (s : State) (a v : Word) : (s.memWrite a v).cond = s.cond := rfl
@[simp] theorem State.memWrite_mem (s : State) (a v : Word) : (s.memWrite a v).mem = s.mem.write a.toNat v := rfl
@[simp] theorem State.memWrite_runState (s : State) (a v : Word) : (s.memWrite a v).runState = s.runState := rfl
@[simp] theorem State.memWrite_fatalInfo (s : State) (a v : Word) : (s.memWrite a v).fatalInfo = s.fatalInfo := rfl
@[simp] theorem State.memWrite_debugEnabled (s : State) (a v : Word) : (s.memWrite a v).debugEnabled = s.debugEnabled := rfl
@[simp] theorem State.memWrite_breakpoints (s : State) (a v : Word) : (s.memWrite a v).breakpoints = s.breakpoints := rfl
@[simp] theorem State.memWrite_bpHits (s : State) (a v : Word) : (s.memWrite a v).bpHits = s.bpHits := rfl
@[simp] theorem State.memWrite_phase (s : State) (a v : Word) : (s.memWrite a v).phase = s.phase := rfl
@[simp] theorem State.memWrite_output (s : State) (a v : Word) : (s.memWrite a v).output = s.output := rfl
@[simp] theorem State.memWrite_polls (s : State) (a v : Word) : (s.memWrite a v).polls = s.polls := rfl
@[simp] theorem State.memWrite_pollDraw (s : State) (a v : Word) : (s.memWrite a v).pollDraw = s.pollDraw := rfl
@[simp] theorem State.memWrite_reads (s : State) (a v : Word) : (s.memWrite a v).reads = s.reads := rfl
@[simp] theorem State.memWrite_confirms (s : State) (a v : Word) : (s.memWrite a v).confirms = s.confirms := rfl
@[simp] theorem State.memWrite_cancelAfter (s : State) (a v : Word) : (s.memWrite a v).cancelAfter = s.cancelAfter := rfl
@[simp] theorem State.memWrite_params (s : State) (a v : Word) : (s.memWrite a v).params = s.params := rfl
@[simp] theorem State.memWrite_reg (s : State) (a v : Word) (q : RegNum) : (s.memWrite a v).reg q = s.reg q := rfl

@[simp] theorem State.updateFlags_regs (s : State) (r : RegNum) : (s.updateFlags r).regs = s.regs := rfl
@[simp] theorem State.updateFlags_pc (s : State) (r : RegNum) : (s.updateFlags r).pc = s.pc := rfl
@[simp] theorem State.updateFlags_cond (s : State) (r : RegNum) : (s.updateFlags r).cond = condOf (s.reg r) := rfl
@[simp] theorem State.updateFlags_mem (s : State) (r : RegNum) : (s.updateFlags r).mem = s.mem := rfl
@[simp] theorem State.updateFlags_runState (s : State) (r : RegNum) : (s.updateFlags r).runState = s.runState := rfl
@[simp] theorem State.updateFlags_fatalInfo (s : State) (r : RegNum) : (s.updateFlags r).fatalInfo = s.fatalInfo := rfl
@[simp] theorem State.updateFlags_debugEnabled (s : State) (r : RegNum) : (s.updateFlags r).debugEnabled = s.debugEnabled := rfl
@[simp] theorem State.updateFlags_breakpoints (s : State) (r : RegNum) : (s.updateFlags r).breakpoints = s.breakpoints := rfl
@[simp] theorem State.updateFlags_bpHits (s : State) (r : RegNum) : (s.updateFlags r).bpHits = s.bpHits := rfl
@[simp] theorem State.updateFlags_phase (s : State) (r : RegNum) : (s.updateFlags r).phase = s.phase := rfl
@[simp] theorem State.updateFlags_output (s : State) (r : RegNum) : (s.updateFlags r).output = s.output := rfl
@[simp] theorem State.updateFlags_polls (s : State) (r : RegNum) : (s.updateFlags r).polls = s.polls := rfl
@[simp] theorem State.updateFlags_pollDraw (s : State) (r : RegNum) : (s.updateFlags r).pollDraw = s.pollDraw := rfl
@[simp] theorem State.updateFlags_reads (s : State) (r : RegNum) : (s.updateFlags r).reads = s.reads := rfl
@[simp] theorem State.updateFlags_confirms (s : State) (r : RegNum) : (s.updateFlags r).confirms = s.confirms := rfl
@[simp] theorem State.updateFlags_cancelAfter (s : State) (r : RegNum) : (s.updateFlags r).cancelAfter = s.cancelAfter := rfl
@[simp] theorem State.updateFlags_params (s : State) (r : RegNum) : (s.updateFlags r).params = s.params := rfl
@[simp] theorem State.updateFlags_reg (s : State) (r : RegNum) (q : RegNum) : (s.updateFlags r).reg q = s.reg q := rfl
@[simp] theorem State.updateFlags_word (s : State) (r : RegNum) (x : Word) : (s.updateFlags r).word x = s.word x := rfl

@[simp] theorem State.setResult_regs (s : State) (r : RegNum) (v : Word) : (s.setResult r v).regs = s.regs.set r v := rfl
@[simp] theorem State.setResult_pc (s : State) (r : RegNum) (v : Word) : (s.setResult r v).pc = s.pc := rfl
@[simp] theorem State.setResult_mem (s : State) (r : RegNum) (v : Word) : (s.setResult r v).mem = s.mem := rfl
@[simp] theorem State.setResult_runState (s : State) (r : RegNum) (v : Word) : (s.setResult r v).runState = s.runState := rfl
@[simp] theorem State.setResult_fatalInfo (s : State) (r : RegNum) (v : Word) : (s.setResult r v).fatalInfo = s.fatalInfo := rfl
@[simp] theorem State.setResult_debugEnabled (s : State) (r : RegNum) (v : Word) : (s.setResult r v).debugEnabled = s.debugEnabled := rfl
@[simp] theorem State.setResult_breakpoints (s : State) (r : RegNum) (v : Word) : (s.setResult r v).breakpoints = s.breakpoints := rfl
@[simp] theorem State.setResult_bpHits (s : State) (r : RegNum) (v : Word) : (s.setResult r v).bpHits = s.bpHits := rfl
@[simp] theorem State.setResult_phase (s : State) (r : RegNum) (v : Word) : (s.setResult r v).phase = s.phase := rfl
@[simp] theorem State.setResult_output (s : State) (r : RegNum) (v : Word) : (s.setResult r v).output = s.output := rfl
@[simp] theorem State.setResult_polls (s : State) (r : RegNum) (v : Word) : (s.setResult r v).polls = s.polls := rfl
@[simp] theorem State.setResult_pollDraw (s : State) (r : RegNum) (v : Word) : (s.setResult r v).pollDraw = s.pollDraw := rfl
@[simp] theorem State.setResult_reads (s : State) (r : RegNum) (v : Word) : (s.setResult r v).reads = s.reads := rfl
@[simp] theorem State.setResult_confirms (s : State) (r : RegNum) (v : Word) : (s.setResult r v).confirms = s.confirms := rfl
@[simp] theorem State.setResult_cancelAfter (s : State) (r : RegNum) (v : Word) : (s.setResult r v).cancelAfter = s.cancelAfter := rfl
@[simp] theorem State.setResult_params (s : State) (r : RegNum) (v : Word) : (s.setResult r v).params = s.params := rfl
@[simp] theorem State.setResult_word (s : State) (r : RegNum) (v : Word) (x : Word) : (s.setResult r v).word x = s.word x := rfl

@[simp] theorem outWrite_regs (s : State) (b : Byte) : (outWrite b s).regs = s.regs := rfl
@[simp] theorem outWrite_pc (s : State) (b : Byte) : (outWrite b s).pc = s.pc := rfl
@[simp] theorem outWrite_cond (s : State) (b : Byte) : (outWrite b s).cond = s.cond := rfl
@[simp] theorem outWrite_mem (s : State) (b : Byte) : (outWrite b s).mem = s.mem := rfl
@[simp] theorem outWrite_runState (s : State) (b : Byte) : (outWrite b s).runState = s.runState := rfl
@[simp] theorem outWrite_fatalInfo (s : State) (b : Byte) : (outWrite b s).fatalInfo = s.fatalInfo := rfl
@[simp] theorem outWrite_debugEnabled (s : State) (b : Byte) : (outWrite b s).debugEnabled = s.debugEnabled := rfl
@[simp] theorem outWrite_breakpoints (s : State) (b : Byte) : (outWrite b s).breakpoints = s.breakpoints := rfl
@[simp] theorem outWrite_bpHits (s : State) (b : Byte) : (outWrite b s).bpHits = s.bpHits := rfl
@[simp] theorem outWrite_phase (s : State) (b : Byte) : (outWrite b s).phase = s.phase := rfl
@[simp] theorem outWrite_output (s : State) (b : Byte) : (outWrite b s).output = s.output ++ [b] := rfl
@[simp] theorem outWrite_polls (s : State) (b : Byte) : (outWrite b s).polls = s.polls := rfl
@[simp] theorem outWrite_pollDraw (s : State) (b : Byte) : (outWrite b s).pollDraw = s.pollDraw := rfl
@[simp] theorem outWrite_reads (s : State) (b : Byte) : (outWrite b s).reads = s.reads := rfl
@[simp] theorem outWrite_confirms (s : State) (b : Byte) : (outWrite b s).confirms = s.confirms := rfl
@[simp] theorem outWrite_cancelAfter (s : State) (b : Byte) : (outWrite b s).cancelAfter = s.cancelAfter := rfl
@[simp] theorem outWrite_params (s : State) (b : Byte) : (outWrite b s).params = s.params := rfl
@[simp] theorem outWrite_reg (s : State) (b : Byte) (q : RegNum) : (outWrite b s).reg q = s.reg q := rfl
@[simp] theorem outWrite_word (s : State) (b : Byte) (x : Word) : (outWrite b s).word x = s.word x := rfl

@[simp] theorem outBytes_regs (s : State) (bs : List Byte) : (outBytes bs s).regs = s.regs := rfl
@[simp] theorem outBytes_pc (s : State) (bs : List Byte) : (outBytes bs s).pc = s.pc := rfl
@[simp] theorem outBytes_cond (s : State) (bs : List Byte) : (outBytes bs s).cond = s.cond := rfl
@[simp] theorem outBytes_mem (s : State) (bs : List Byte) : (outBytes bs s).mem = s.mem := rfl
@[simp] theorem outBytes_runState (s : State) (bs : List Byte) : (outBytes bs s).runState = s.runState := rfl
@[simp] theorem outBytes_fatalInfo (s : State) (bs : List Byte) : (outBytes bs s).fatalInfo = s.fatalInfo := rfl
@[simp] theorem outBytes_debugEnabled (s : State) (bs : List Byte) : (outBytes bs s).debugEnabled = s.debugEnabled := rfl
@[simp] theorem outBytes_breakpoints (s : State) (bs : List Byte) : (outBytes bs s).breakpoints = s.breakpoints := rfl
@[simp] theorem outBytes_bpHits (s : State) (bs : List Byte) : (outBytes bs s).bpHits = s.bpHits := rfl
@[simp] theorem outBytes_phase (s : State) (bs : List Byte) : (outBytes bs s).phase = s.phase := rfl
@[simp] theorem outBytes_output (s : State) (bs : List Byte) : (outBytes bs s).output = s.output ++ bs := rfl
@[simp] theorem outBytes_polls (s : State) (bs : List Byte) : (outBytes bs s).polls = s.polls := rfl
@[simp] theorem outBytes_pollDraw (s : State) (bs : List Byte) : (outBytes bs s).pollDraw = s.pollDraw := rfl
@[simp] theorem outBytes_reads (s : State) (bs : List Byte) : (outBytes bs s).reads = s.reads := rfl
@[simp] theorem outBytes_confirms (s : State) (bs : List Byte) : (outBytes bs s).confirms = s.confirms := rfl
@[simp] theorem outBytes_cancelAfter (s : State) (bs : List Byte) : (outBytes bs s).cancelAfter = s.cancelAfter := rfl
@[simp] theorem outBytes_params (s : State) (bs : List Byte) : (outBytes bs s).params = s.params := rfl
@[simp] theorem outBytes_reg (s : State) (bs : List Byte) (q : RegNum) : (outBytes bs s).reg q = s.reg q := rfl
@[simp] theorem outBytes_word (s : State) (bs : List Byte) (x : Word) : (outBytes bs s).word x = s.word x := rfl

@[simp] theorem State.link_regs (s : State) : s.link.regs = s.regs.set linkReg s.pc := rfl
@[simp] theorem State.link_pc (s : State) : s.link.pc = s.pc := rfl
@[simp] theorem State.link_cond (s : State) : s.link.cond = s.cond := rfl
@[simp] theorem State.link_mem (s : State) : s.link.mem = s.mem := rfl
@[simp] theorem State.link_runState (s : State) : s.link.runState = s.runState := rfl
@[simp] theorem State.link_fatalInfo (s : State) : s.link.fatalInfo = s.fatalInfo := rfl
@[simp] theorem State.link_debugEnabled (s : State) : s.link.debugEnabled = s.debugEnabled := rfl
@[simp] theorem State.link_breakpoints (s : State) : s.link.breakpoints = s.breakpoints := rfl
@[simp] theorem State.link_bpHits (s : State) : s.link.bpHits = s.bpHits := rfl
@[simp] theorem State.link_phase (s : State) : s.link.phase = s.phase := rfl
@[simp] theorem State.link_output (s : State) : s.link.output = s.output := rfl
@[simp] theorem State.link_polls (s : State) : s.link.polls = s.polls := rfl
@[simp] theorem State.link_pollDraw (s : State) : s.link.pollDraw = s.pollDraw := rfl
@[simp] theorem State.link_reads (s : State) : s.link.reads = s.reads := rfl
@[simp] theorem State.link_confirms (s : State) : s.link.confirms = s.confirms := rfl
@[simp] theorem State.link_cancelAfter (s : State) : s.link.cancelAfter = s.cancelAfter := rfl
@[simp] theorem State.link_params (s : State) : s.link.params = s.params := rfl
@[simp] theorem State.link_word (s : State) (x : Word) : s.link.word x = s.word x := rfl

@[simp] theorem enterTrap_regs (s : State) : (enterTrap s).regs = s.regs.set linkReg s.pc := rfl
@[simp] theorem enterTrap_pc (s : State) : (enterTrap s).pc = s.pc := rfl
@[simp] theorem enterTrap_cond (s : State) : (enterTrap s).cond = s.cond := rfl
@[simp] theorem enterTrap_mem (s : State) : (enterTrap s).mem = s.mem := rfl
@[simp] theorem enterTrap_runState (s : State) : (enterTrap s).runState = s.runState := rfl
@[simp] theorem enterTrap_fatalInfo (s : State) : (enterTrap s).fatalInfo = s.fatalInfo := rfl
@[simp] theorem enterTrap_debugEnabled (s : State) : (enterTrap s).debugEnabled = s.debugEnabled := rfl
@[simp] theorem enterTrap_breakpoints (s : State) : (enterTrap s).breakpoints = s.breakpoints := rfl
@[simp] theorem enterTrap_bpHits (s : State) : (enterTrap s).bpHits = s.bpHits := rfl
@[simp] theorem enterTrap_phase (s : State) : (enterTrap s).phase = s.phase := rfl
@[simp] theorem enterTrap_output (s : State) : (enterTrap s).output = s.output := rfl
@[simp] theorem enterTrap_polls (s : State) : (enterTrap s).polls = s.polls := rfl
@[simp] theorem enterTrap_pollDraw (s : State) : (enterTrap s).pollDraw = s.pollDraw := rfl
@[simp] theorem enterTrap_reads (s : State) : (enterTrap s).reads = s.reads := rfl
@[simp] theorem enterTrap_confirms (s : State) : (enterTrap s).confirms = s.confirms := rfl
@[simp] theorem enterTrap_cancelAfter (s : State) : (enterTrap s).cancelAfter = s.cancelAfter := rfl
@[simp] theorem enterTrap_params (s : State) : (enterTrap s).params = s.params := rfl
@[simp] theorem enterTrap_word (s : State) (x : Word) : (enterTrap s).word x = s.word x := rfl

@[simp] theorem raiseFatal_regs (s : State) (f : FatalInfo) : (raiseFatal f s).regs = s.regs := rfl
@[simp] theorem raiseFatal_pc (s : State) (f : FatalInfo) : (raiseFatal f s).pc = s.pc := rfl
@[simp] theorem raiseFatal_cond (s : State) (f : FatalInfo) : (raiseFatal f s).cond = s.cond := rfl
@[simp] theorem raiseFatal_mem (s : State) (f : FatalInfo) : (raiseFatal f s).mem = s.mem := rfl
@[simp] theorem raiseFatal_runState (s : State) (f : FatalInfo) : (raiseFatal f s).runState = .fatal := rfl
@[simp] theorem raiseFatal_fatalInfo (s : State) (f : FatalInfo) : (raiseFatal f s).fatalInfo = some f := rfl
@[simp] theorem raiseFatal_debugEnabled (s : State) (f : FatalInfo) : (raiseFatal f s).debugEnabled = s.debugEnabled := rfl
@[simp] theorem raiseFatal_breakpoints (s : State) (f : FatalInfo) : (raiseFatal f s).breakpoints = s.breakpoints := rfl
@[simp] theorem raiseFatal_bpHits (s : State) (f : FatalInfo) : (raiseFatal f s).bpHits = s.bpHits := rfl
@[simp] theorem raiseFatal_phase (s : State) (f : FatalInfo) : (raiseFatal f s).phase = s.phase := rfl
@[simp] theorem raiseFatal_output (s : State) (f : FatalInfo) : (raiseFatal f s).output = s.output := rfl
@[simp] theorem raiseFatal_polls (s : State) (f : FatalInfo) : (raiseFatal f s).polls = s.polls := rfl
@[simp] theorem raiseFatal_pollDraw (s : State) (f : FatalInfo) : (raiseFatal f s).pollDraw = s.pollDraw := rfl
@[simp] theorem raiseFatal_reads (s : State) (f : FatalInfo) : (raiseFatal f s).reads = s.reads := rfl
@[simp] theorem raiseFatal_confirms (s : State) (f : FatalInfo) : (raiseFatal f s).confirms = s.confirms := rfl
@[simp] theorem raiseFatal_cancelAfter (s : State) (f : FatalInfo) : (raiseFatal f s).cancelAfter = s.cancelAfter := rfl
@[simp] theorem raiseFatal_params (s : State) (f : FatalInfo) : (raiseFatal f s).params = s.params := rfl
@[simp] theorem raiseFatal_reg (s : State) (f : FatalInfo) (q : RegNum) : (raiseFatal f s).reg q = s.reg q := rfl
@[simp] theorem raiseFatal_word (s : State) (f : FatalInfo) (x : Word) : (raiseFatal f s).word x = s.word x := rfl

@[simp] theorem bpHit_regs (s : State) (a w : Word) : (bpHit a w s).regs = s.regs := rfl
@[simp] theorem bpHit_pc (s : State) (a w : Word) : (bpHit a w s).pc = s.pc := rfl
@[simp] theorem bpHit_cond (s : State) (a w : Word) : (bpHit a w s).cond = s.cond := rfl
@[simp] theorem bpHit_mem (s : State) (a w : Word) : (bpHit a w s).mem = s.mem := rfl
@[simp] theorem bpHit_runState (s : State) (a w : Word) : (bpHit a w s).runState = s.runState := rfl
@[simp] theorem bpHit_fatalInfo (s : State) (a w : Word) : (bpHit a w s).fatalInfo = s.fatalInfo := rfl
@[simp] theorem bpHit_debugEnabled (s : State) (a w : Word) : (bpHit a w s).debugEnabled = s.debugEnabled := rfl
@[simp] theorem bpHit_breakpoints (s : State) (a w : Word) : (bpHit a w s).breakpoints = s.breakpoints := rfl
@[simp] theorem bpHit_phase (s : State) (a w : Word) : (bpHit a w s).phase = s.phase := rfl
@[simp] theorem bpHit_output (s : State) (a w : Word) : (bpHit a w s).output = s.output := rfl
@[simp] theorem bpHit_polls (s : State) (a w : Word) : (bpHit a w s).polls = s.polls := rfl
@[simp] theorem bpHit_pollDraw (s : State) (a w : Word) : (bpHit a w s).pollDraw = s.pollDraw := rfl
@[simp] theorem bpHit_reads (s : State) (a w : Word) : (bpHit a w s).reads = s.reads := rfl
@[simp] theorem bpHit_confirms (s : State) (a w : Word) : (bpHit a w s).confirms = s.confirms := rfl
@[simp] theorem bpHit_cancelAfter (s : State) (a w : Word) : (bpHit a w s).cancelAfter = s.cancelAfter := rfl
@[simp] theorem bpHit_params (s : State) (a w : Word) : (bpHit a w s).params = s.params := rfl
@[simp] theorem bpHit_bpHits (s : State) (a w : Word) : (bpHit a w s).bpHits = s.bpHits ++ [(a, w)] := rfl
@[simp] theorem bpHit_reg (s : State) (a w : Word) (q : RegNum) : (bpHit a w s).reg q = s.reg q := rfl
@[simp] theorem bpHit_word (s : State) (a w x : Word) : (bpHit a w s).word x = s.word x := rfl

/-- The report of a breakpoint changes the signals and the output, and nothing else. -/
theorem reportBreakpoint_eq (a w : Word) (s : State) : reportBreakpoint a w s =
    { s with bpHits := s.bpHits ++ [(a, w)], output := s.output ++ Config.bpDiagnostic a w } := rfl

/-! The register file: one read-after-write lemma, and what it gives for the operations that write a register. -/

theorem State.setReg_reg (s : State) (r q : RegNum) (v : Word) :
    (s.setReg r v).reg q = if r = q then v else s.reg q := by
  simp only [State.setReg, State.reg, Fin.getElem_fin, Vector.getElem_set, Fin.ext_iff]

@[simp] theorem State.setReg_reg_self (s : State) (r : RegNum) (v : Word) : (s.setReg r v).reg r = v := by
  simp [State.setReg_reg]

theorem State.setReg_reg_ne (s : State) (r q : RegNum) (v : Word) (h : q ≠ r) : (s.setReg r v).reg q = s.reg q := by
  simp [State.setReg_reg, Ne.symm h]

@[simp] theorem State.setResult_reg_self (s : State) (r : RegNum) (v : Word) : (s.setResult r v).reg r = v := by
  simp [State.setResult]

theorem State.setResult_reg_ne (s : State) (r q : RegNum) (v : Word) (h : q ≠ r) :
    (s.setResult r v).reg q = s.reg q := by
  simp [State.setResult, State.setReg_reg_ne, h]

@[simp] theorem State.setResult_cond (s : State) (r : RegNum) (v : Word) : (s.setResult r v).cond = condOf v := by
  simp [State.setResult]

theorem State.link_reg (s : State) (q : RegNum) : s.link.reg q = if linkReg = q then s.pc else s.reg q :=
  State.setReg_reg s linkReg q s.pc

@[simp] theorem State.link_reg_seven (s : State) : s.link.reg 7 = s.pc :=
  State.setReg_reg_self s 7 s.pc

theorem State.link_reg_ne (s : State) (q : RegNum) (h : q ≠ 7) : s.link.reg q = s.reg q :=
  State.setReg_reg_ne s 7 q s.pc h

@[simp] theorem enterTrap_reg_seven (s : State) : (enterTrap s).reg 7 = s.pc := s.link_reg_seven

@[simp] theorem enterTrap_reg_zero (s : State) : (enterTrap s).reg 0 = s.reg 0 := s.link_reg_ne 0 (by decide)

theorem enterTrap_reg_ne (s : State) (q : RegNum) (h : q ≠ 7) : (enterTrap s).reg q = s.reg q := s.link_reg_ne q h

end Sys2Proof.Machine
end

