-- ==== Sys2Proof/Laws/Memory.lean ====
section
/-! SUPPORT. The laws of the memory list: read after write, and that every operation keeps the canonical form. -/

namespace Sys2Proof.Machine

@[simp] theorem Memory.read_nil (a : Nat) : Memory.read [] a = 0x0000#16 := rfl

theorem Memory.read_cons (k : Nat) (u : Word) (m : Memory) (a : Nat) :
    Memory.read ((k, u) :: m) a = if k = a then u else m.read a := rfl

/-! ## Read after write, in any memory -/

theorem Memory.read_insert (m : Memory) (a b : Nat) (v : Word) :
    (Memory.insert m a v).read b = if b = a then v else m.read b := by
  induction m with
  | nil => simp only [Memory.insert, Memory.read_cons, eq_comm]
  | cons c m ih =>
    obtain ⟨k, u⟩ := c
    by_cases hb : b = a
    · subst hb
      simp only [Memory.insert]
      split_ifs with h1 h2
      · simp [Memory.read_cons]
      · simp [Memory.read_cons]
      · rw [Memory.read_cons, if_neg (Ne.symm h2), ih, if_pos rfl]
    · have hab : a ≠ b := Ne.symm hb
      simp only [Memory.insert, if_neg hb]
      split_ifs with h1 h2
      · simp [Memory.read_cons, hab]
      · subst h2
        simp [Memory.read_cons, hab]
      · simp [Memory.read_cons, ih, hb]

theorem Memory.read_filter (m : Memory) (a b : Nat) :
    Memory.read (m.filter fun c => c.1 != a) b = if b = a then 0x0000#16 else m.read b := by
  induction m with
  | nil => simp
  | cons c m ih =>
    obtain ⟨k, u⟩ := c
    by_cases hk : k = a
    · subst hk
      simp only [List.filter_cons, bne_self_eq_false, Bool.false_eq_true, if_false, ih, Memory.read_cons]
      split_ifs <;> simp_all
    · simp only [List.filter_cons, bne_iff_ne, ne_eq, hk, not_false_eq_true, if_true, Memory.read_cons, ih]
      split_ifs <;> simp_all

/-- Read after write: the written address gives the value, every other address what it gave. -/
theorem Memory.read_write (m : Memory) (a b : Nat) (v : Word) :
    (m.write a v).read b = if b = a then v else m.read b := by
  unfold Memory.write
  split
  · next h => rw [Memory.read_filter, h]; rfl
  · exact Memory.read_insert m a b v

/-! ## The canonical form -/

theorem Memory.mem_insert {m : Memory} {a : Nat} {v : Word} {c : Nat × Word} (h : c ∈ Memory.insert m a v) :
    c = (a, v) ∨ c ∈ m := by
  induction m with
  | nil => simpa [Memory.insert] using h
  | cons d m ih =>
    obtain ⟨k, u⟩ := d
    rw [Memory.insert] at h
    split_ifs at h with h1 h2
    · simpa using h
    · rcases List.mem_cons.mp h with rfl | h
      · exact .inl rfl
      · exact .inr (List.mem_cons_of_mem _ h)
    · rcases List.mem_cons.mp h with rfl | h
      · exact .inr List.mem_cons_self
      · exact (ih h).imp id (List.mem_cons_of_mem _)

theorem Memory.sorted_insert (m : Memory) (a : Nat) (v : Word) (h : m.Pairwise (fun c d => c.1 < d.1)) :
    (Memory.insert m a v).Pairwise (fun c d => c.1 < d.1) := by
  induction m with
  | nil => simp [Memory.insert]
  | cons c m ih =>
    obtain ⟨k, u⟩ := c
    obtain ⟨hk, hm⟩ := List.pairwise_cons.mp h
    rw [Memory.insert]
    split_ifs with h1 h2
    · refine List.pairwise_cons.mpr ⟨fun d hd => ?_, h⟩
      rcases List.mem_cons.mp hd with rfl | hd
      · exact h1
      · exact Nat.lt_trans h1 (hk d hd)
    · subst h2
      exact List.pairwise_cons.mpr ⟨hk, hm⟩
    · refine List.pairwise_cons.mpr ⟨fun d hd => ?_, ih hm⟩
      rcases Memory.mem_insert hd with rfl | hd
      · simp only
        omega
      · exact hk d hd

theorem Memory.wf_nil : Memory.wf [] := ⟨List.Pairwise.nil, by simp⟩

/-- A write inside the address space keeps the canonical form. -/
theorem Memory.wf_write (m : Memory) (a : Nat) (v : Word) (ha : a < 2 ^ 16) (h : m.wf) : (m.write a v).wf := by
  unfold Memory.write
  split
  · exact ⟨h.1.filter _, fun c hc => h.2 c (List.mem_filter.mp hc).1⟩
  · next hv =>
    refine ⟨Memory.sorted_insert m a v h.1, fun c hc => ?_⟩
    rcases Memory.mem_insert hc with rfl | hc
    · exact ⟨ha, hv⟩
    · exact h.2 c hc

theorem loadWords_wf (ws : List Word) : ∀ (a : Nat) (m : Memory), m.wf → (loadWords a ws m).wf := by
  induction ws with
  | nil => exact fun _ _ h => h
  | cons w ws ih =>
    intro a m h
    rw [loadWords]
    split
    · exact h
    · exact ih _ _ (Memory.wf_write m a w (by omega) h)

theorem loadImage_wf (m : Memory) (img : Image) (h : m.wf) : (loadImage m img).wf :=
  loadWords_wf img.words _ m h

/-! ## The same, through the state -/

/-- Read after a store, by address. -/
theorem State.memWrite_word (s : State) (a b v : Word) :
    (s.memWrite a v).word b = if b = a then v else s.word b := by
  simp only [State.word, State.memWrite_mem, Memory.read_write, BitVec.toNat_inj]

@[simp] theorem State.memWrite_word_self (s : State) (a v : Word) : (s.memWrite a v).word a = v := by
  simp [State.memWrite_word]

theorem State.memWrite_word_ne (s : State) (a b v : Word) (h : b ≠ a) : (s.memWrite a v).word b = s.word b := by
  simp [State.memWrite_word, h]

theorem State.memWrite_wf (s : State) (a v : Word) (h : s.mem.wf) : (s.memWrite a v).mem.wf :=
  Memory.wf_write s.mem a.toNat v a.isLt h

end Sys2Proof.Machine
end

