-- ==== Sys2Proof/Laws/Ops.lean ====
section
/-! SUPPORT. What each shared operation can do, said once: the flags, the keyboard poll and MemRead, cancel points, waiting
for input, string output. Provers cite these and do not unfold the operations. -/

namespace Sys2Proof.Machine

/-! ## Flags and operands -/

/-- `condOf` is R100's flag rule, read on the signed value. -/
theorem condOf_matches (v : Word) : CondMatches (condOf v) v := by
  have hz : v = 0x0000#16 → v.toInt = 0 := by rintro rfl; rfl
  have h0 : v.toInt = 0 → v = 0x0000#16 := fun h => BitVec.eq_of_toInt_eq h
  have hn : v.getLsbD 15 = decide (v.toInt < 0) := by
    rw [← BitVec.msb_eq_toInt, BitVec.msb_eq_getLsbD_last]
  unfold CondMatches condOf
  refine ⟨fun h => ?_, fun h => ?_, fun h => ?_⟩
  · rw [if_pos (h0 h)]
  · rw [if_neg (fun e => by have := hz e; omega), hn, if_pos (by simpa using h)]
  · rw [if_neg (fun e => by have := hz e; omega), hn, if_neg (by simp; omega)]

/-- BR's test, without COND's encoding (R120). -/
theorem branchTaken_iff (n z p : Bool) (c : Cond) : branchTaken n z p c = true ↔
    (n = true ∧ c = .negative) ∨ (z = true ∧ c = .zero) ∨ (p = true ∧ c = .positive) := by
  cases c <;> revert n z p <;> decide

theorem sext5_eq_signedWord (v : BitVec 5) : sext5 v = signedWord v := rfl
theorem sext6_eq_signedWord (v : BitVec 6) : sext6 v = signedWord v := rfl
theorem sext9_eq_signedWord (v : BitVec 9) : sext9 v = signedWord v := rfl
theorem sext11_eq_signedWord (v : BitVec 11) : sext11 v = signedWord v := rfl

/-- Adding a signed field is integer addition modulo 2^16 (R9, R74). -/
theorem toNat_add_signedWord {n : Nat} (x : Word) (v : BitVec n) :
    ((x + signedWord v).toNat : Int) = (x.toNat + v.toInt) % 65536 := by
  rw [BitVec.toNat_add, signedWord, BitVec.toNat_ofInt]
  omega

theorem lowByte_eq (w : Word) : lowByte w = BitVec.ofNat 8 (bitsOf w 7 0) := by
  apply BitVec.eq_of_toNat_eq
  simp [lowByte, bitsOf]

theorem highByte_eq (w : Word) : highByte w = BitVec.ofNat 8 (bitsOf w 15 8) := by
  apply BitVec.eq_of_toNat_eq
  simp [highByte, bitsOf, Nat.shiftRight_eq_div_pow]

theorem zext8_toNat (c : Byte) : (zext8 c).toNat = c.toNat := by
  have := c.isLt
  simp [zext8]
  omega

/-! ## The keyboard poll and MemRead -/

/-- InPoll takes one answer of the host. -/
theorem inPoll_answer (s : State) : PollAnswer s (inPoll s).1 (inPoll s).2 := by
  unfold inPoll
  split
  · next r rs h => exact .given r rs h
  · next h => exact .drawn h

theorem State.pollResult_eq (s : State) (r : Option Byte) :
    s.pollResult r = { s with mem := (s.pollResult r).mem } := by
  cases r <;> rfl

/-- The effect of a poll's answer on one word (R44). -/
theorem State.pollResult_word (s : State) (r : Option Byte) (a : Word) : (s.pollResult r).word a =
    match r with
    | some c => if a = s.params.kbdrAddr then zext8 c else if a = s.params.kbsrAddr then 0x8000#16 else s.word a
    | none => if a = s.params.kbsrAddr then 0x0000#16 else s.word a := by
  cases r <;> simp [State.pollResult, State.memWrite_word]

theorem State.pollResult_wf (s : State) (r : Option Byte) (h : s.mem.wf) : (s.pollResult r).mem.wf := by
  cases r
  · exact State.memWrite_wf _ _ _ h
  · exact State.memWrite_wf _ _ _ (State.memWrite_wf _ _ _ h)

/-- A poll changes memory and the host's answers, and nothing else. -/
theorem keyboardPoll_eq (s : State) :
    keyboardPoll s = { (inPoll s).2 with mem := (keyboardPoll s).mem } :=
  State.pollResult_eq _ _

theorem inPoll_eq (s : State) :
    (inPoll s).2 = { s with polls := (inPoll s).2.polls, pollDraw := (inPoll s).2.pollDraw } := by
  unfold inPoll
  split <;> rfl

@[simp] theorem keyboardPoll_regs (s : State) : (keyboardPoll s).regs = s.regs := by
  rw [keyboardPoll_eq, inPoll_eq]

@[simp] theorem keyboardPoll_pc (s : State) : (keyboardPoll s).pc = s.pc := by
  rw [keyboardPoll_eq, inPoll_eq]

@[simp] theorem keyboardPoll_cond (s : State) : (keyboardPoll s).cond = s.cond := by
  rw [keyboardPoll_eq, inPoll_eq]

@[simp] theorem keyboardPoll_runState (s : State) : (keyboardPoll s).runState = s.runState := by
  rw [keyboardPoll_eq, inPoll_eq]

@[simp] theorem keyboardPoll_fatalInfo (s : State) : (keyboardPoll s).fatalInfo = s.fatalInfo := by
  rw [keyboardPoll_eq, inPoll_eq]

@[simp] theorem keyboardPoll_debugEnabled (s : State) : (keyboardPoll s).debugEnabled = s.debugEnabled := by
  rw [keyboardPoll_eq, inPoll_eq]

@[simp] theorem keyboardPoll_breakpoints (s : State) : (keyboardPoll s).breakpoints = s.breakpoints := by
  rw [keyboardPoll_eq, inPoll_eq]

@[simp] theorem keyboardPoll_bpHits (s : State) : (keyboardPoll s).bpHits = s.bpHits := by
  rw [keyboardPoll_eq, inPoll_eq]

@[simp] theorem keyboardPoll_phase (s : State) : (keyboardPoll s).phase = s.phase := by
  rw [keyboardPoll_eq, inPoll_eq]

@[simp] theorem keyboardPoll_output (s : State) : (keyboardPoll s).output = s.output := by
  rw [keyboardPoll_eq, inPoll_eq]

@[simp] theorem keyboardPoll_reads (s : State) : (keyboardPoll s).reads = s.reads := by
  rw [keyboardPoll_eq, inPoll_eq]

@[simp] theorem keyboardPoll_confirms (s : State) : (keyboardPoll s).confirms = s.confirms := by
  rw [keyboardPoll_eq, inPoll_eq]

@[simp] theorem keyboardPoll_cancelAfter (s : State) : (keyboardPoll s).cancelAfter = s.cancelAfter := by
  rw [keyboardPoll_eq, inPoll_eq]

@[simp] theorem keyboardPoll_params (s : State) : (keyboardPoll s).params = s.params := by
  rw [keyboardPoll_eq, inPoll_eq]

@[simp] theorem keyboardPoll_reg (s : State) (r : RegNum) : (keyboardPoll s).reg r = s.reg r := by
  simp [State.reg]

/-- The effect of a poll on one word (R44). -/
theorem keyboardPoll_word (s : State) (a : Word) : (keyboardPoll s).word a =
    match (inPoll s).1 with
    | some c => if a = s.params.kbdrAddr then zext8 c else if a = s.params.kbsrAddr then 0x8000#16 else s.word a
    | none => if a = s.params.kbsrAddr then 0x0000#16 else s.word a := by
  have hp : (inPoll s).2.params = s.params := by rw [inPoll_eq]
  have hw : (inPoll s).2.word a = s.word a := by rw [inPoll_eq]; rfl
  have := State.pollResult_word (inPoll s).2 (inPoll s).1 a
  rwa [hp, hw] at this

theorem keyboardPoll_wf (s : State) (h : s.mem.wf) : (keyboardPoll s).mem.wf := by
  have hm : (inPoll s).2.mem = s.mem := by rw [inPoll_eq]
  exact State.pollResult_wf _ _ (hm ▸ h)

theorem pollIfStatus_of_ne (a : Word) (s : State) (h : a ≠ s.params.kbsrAddr) : pollIfStatus a s = s :=
  if_neg h

theorem pollIfStatus_of_eq (a : Word) (s : State) (h : a = s.params.kbsrAddr) : pollIfStatus a s = keyboardPoll s :=
  if_pos h

@[simp] theorem pollIfStatus_regs (a : Word) (s : State) : (pollIfStatus a s).regs = s.regs := by
  unfold pollIfStatus; split <;> simp

@[simp] theorem pollIfStatus_pc (a : Word) (s : State) : (pollIfStatus a s).pc = s.pc := by
  unfold pollIfStatus; split <;> simp

@[simp] theorem pollIfStatus_cond (a : Word) (s : State) : (pollIfStatus a s).cond = s.cond := by
  unfold pollIfStatus; split <;> simp

@[simp] theorem pollIfStatus_runState (a : Word) (s : State) : (pollIfStatus a s).runState = s.runState := by
  unfold pollIfStatus; split <;> simp

@[simp] theorem pollIfStatus_fatalInfo (a : Word) (s : State) : (pollIfStatus a s).fatalInfo = s.fatalInfo := by
  unfold pollIfStatus; split <;> simp

@[simp] theorem pollIfStatus_debugEnabled (a : Word) (s : State) : (pollIfStatus a s).debugEnabled = s.debugEnabled := by
  unfold pollIfStatus; split <;> simp

@[simp] theorem pollIfStatus_breakpoints (a : Word) (s : State) : (pollIfStatus a s).breakpoints = s.breakpoints := by
  unfold pollIfStatus; split <;> simp

@[simp] theorem pollIfStatus_bpHits (a : Word) (s : State) : (pollIfStatus a s).bpHits = s.bpHits := by
  unfold pollIfStatus; split <;> simp

@[simp] theorem pollIfStatus_phase (a : Word) (s : State) : (pollIfStatus a s).phase = s.phase := by
  unfold pollIfStatus; split <;> simp

@[simp] theorem pollIfStatus_output (a : Word) (s : State) : (pollIfStatus a s).output = s.output := by
  unfold pollIfStatus; split <;> simp

@[simp] theorem pollIfStatus_reads (a : Word) (s : State) : (pollIfStatus a s).reads = s.reads := by
  unfold pollIfStatus; split <;> simp

@[simp] theorem pollIfStatus_confirms (a : Word) (s : State) : (pollIfStatus a s).confirms = s.confirms := by
  unfold pollIfStatus; split <;> simp

@[simp] theorem pollIfStatus_cancelAfter (a : Word) (s : State) : (pollIfStatus a s).cancelAfter = s.cancelAfter := by
  unfold pollIfStatus; split <;> simp

@[simp] theorem pollIfStatus_params (a : Word) (s : State) : (pollIfStatus a s).params = s.params := by
  unfold pollIfStatus; split <;> simp

@[simp] theorem pollIfStatus_reg (a : Word) (s : State) (r : RegNum) : (pollIfStatus a s).reg r = s.reg r := by
  simp [State.reg]

theorem pollIfStatus_wf (a : Word) (s : State) (h : s.mem.wf) : (pollIfStatus a s).mem.wf := by
  unfold pollIfStatus
  split
  · exact keyboardPoll_wf s h
  · exact h

/-- A read's poll touches no word but the two keyboard words. -/
theorem pollIfStatus_word_ne (a b : Word) (s : State) (h1 : b ≠ s.params.kbsrAddr) (h2 : b ≠ s.params.kbdrAddr) :
    (pollIfStatus a s).word b = s.word b := by
  unfold pollIfStatus
  split
  · rw [keyboardPoll_word]
    split <;> simp [h1, h2]
  · rfl

theorem memRead_fst (a : Word) (s : State) : (memRead a s).1 = (pollIfStatus a s).word a := rfl

@[simp] theorem memRead_snd (a : Word) (s : State) : (memRead a s).2 = pollIfStatus a s := rfl

/-! ## Cancel points, holds and string output -/

section CancelPoint
variable {α : Type} (stop go : State → α) (s : State)

theorem atCancelPoint_none (h : s.cancelAfter = none) : atCancelPoint stop go s = go s := by
  simp [atCancelPoint, h]

theorem atCancelPoint_zero (h : s.cancelAfter = some 0) :
    atCancelPoint stop go s = stop { s with runState := .cancelled, cancelAfter := none } := by
  simp [atCancelPoint, h]

/-- No cancel present: the point is passed. -/
theorem atCancelPoint_pass (h : s.cancelAfter ≠ some 0) :
    atCancelPoint stop go s = go { s with cancelAfter := passPoint s.cancelAfter } := by
  unfold atCancelPoint
  split
  · next hc => rw [hc]; cases s; cases hc; rfl
  · next hc => exact absurd hc h
  · next n hc => rw [hc]; rfl

end CancelPoint

/-- Waiting for input: cancelled, held, or answered. -/
theorem awaitRead_cancel (ph : Phase) (fin : ReadAnswer → State → State) (s : State) (h : s.cancelAfter = some 0) :
    awaitRead ph fin s = { s with runState := .cancelled, cancelAfter := none } :=
  atCancelPoint_zero _ _ s h

theorem awaitRead_hold (ph : Phase) (fin : ReadAnswer → State → State) (s : State) (hc : s.cancelAfter ≠ some 0)
    (hr : s.reads = []) : awaitRead ph fin s = { s with cancelAfter := passPoint s.cancelAfter, phase := ph } := by
  rw [awaitRead, atCancelPoint_pass _ _ s hc]
  simp [hr]

theorem awaitRead_answer (ph : Phase) (fin : ReadAnswer → State → State) (s : State) (r : ReadAnswer)
    (rs : List ReadAnswer) (hc : s.cancelAfter ≠ some 0) (hr : s.reads = r :: rs) : awaitRead ph fin s =
      fin r { s with cancelAfter := passPoint s.cancelAfter, reads := rs, phase := .boundary } := by
  rw [awaitRead, atCancelPoint_pass _ _ s hc]
  simp [hr]

/-- `n` cancel points are passed. -/
def passPoints (n : Nat) (c : Option Nat) : Option Nat := c.map (· - n)

/-- Writing the rest of a string when the cancel is further away than its bytes. -/
theorem writeRest_all (fin : State → State) (bs : List Byte) : ∀ s : State,
    (∀ n, s.cancelAfter = some n → bs.length ≤ n) → writeRest fin bs s =
      fin { s with output := s.output ++ bs, cancelAfter := passPoints bs.length s.cancelAfter } := by
  induction bs with
  | nil =>
    intro s _
    cases s
    simp [writeRest, passPoints]
  | cons b bs ih =>
    intro s h
    have hc : s.cancelAfter ≠ some 0 := fun e => by have := h 0 e; simp at this
    rw [writeRest, atCancelPoint_pass _ _ s hc, ih]
    · congr 1
      cases hs : s.cancelAfter <;> simp [outWrite, passPoint, passPoints]
      omega
    · intro n hn
      cases hs : s.cancelAfter with
      | none => simp [outWrite, passPoint, hs] at hn
      | some m =>
        have := h m hs
        simp [outWrite, passPoint, hs] at hn this
        omega

/-- Writing the rest of a string when the cancel lands in it: the bytes before it are written, and nothing more. -/
theorem writeRest_cancel (fin : State → State) (bs : List Byte) : ∀ (s : State) (k : Nat),
    s.cancelAfter = some k → k < bs.length → writeRest fin bs s =
      { s with output := s.output ++ bs.take k, runState := .cancelled, cancelAfter := none } := by
  induction bs with
  | nil => intro s k _ h; simp at h
  | cons b bs ih =>
    intro s k hk h
    cases k with
    | zero =>
      rw [writeRest, atCancelPoint_zero _ _ s hk]
      simp
    | succ k =>
      rw [writeRest, atCancelPoint_pass _ _ s (by simp [hk]), ih _ k (by simp [outWrite, passPoint, hk])
        (by simpa using h)]
      simp [outWrite]

/-- Writing a string, no cancel landing between two of its bytes. -/
theorem writeString_all (fin : State → State) (bs : List Byte) (s : State)
    (h : ∀ n, s.cancelAfter = some n → bs.length - 1 ≤ n) : writeString fin bs s =
      fin { s with output := s.output ++ bs, cancelAfter := passPoints (bs.length - 1) s.cancelAfter } := by
  cases bs with
  | nil =>
    cases s with
    | mk regs pc cond mem runState fatalInfo debugEnabled breakpoints phase output bpHits polls pollDraw reads
        confirms cancelAfter params => cases cancelAfter <;> simp [writeString, passPoints]
  | cons b bs =>
    rw [writeString, writeRest_all]
    · simp [outWrite]
    · simpa [outWrite] using h

/-- Writing a string with a cancel between two of its bytes. -/
theorem writeString_cancel (fin : State → State) (bs : List Byte) (s : State) (k : Nat) (hk : s.cancelAfter = some k)
    (h : k + 1 < bs.length) : writeString fin bs s =
      { s with output := s.output ++ bs.take (k + 1), runState := .cancelled, cancelAfter := none } := by
  cases bs with
  | nil => simp at h
  | cons b bs =>
    rw [writeString, writeRest_cancel _ _ _ k (by simpa [outWrite] using hk) (by simpa using h)]
    simp [outWrite]

/-! ## Strings in memory -/

/-- The words up to a zero word within reach, and that it was reached. -/
theorem stringWords_zero (m : Memory) (n : Nat) (a : Word) (h : m.read a.toNat = 0x0000#16) :
    stringWords m (n + 1) a = ([], true) := by
  simp [stringWords, h]

theorem stringWords_succ (m : Memory) (n : Nat) (a : Word) (h : m.read a.toNat ≠ 0x0000#16) :
    stringWords m (n + 1) a =
      (m.read a.toNat :: (stringWords m n (a + 1)).1, (stringWords m n (a + 1)).2) := by
  simp [stringWords, h]

/-- With no zero word in memory a lap reads all its words and does not end. -/
theorem stringWords_endless (m : Memory) (h : ∀ a : Word, m.read a.toNat ≠ 0x0000#16) (n : Nat) : ∀ a : Word,
    (stringWords m n a).2 = false ∧ (stringWords m n a).1.length = n := by
  induction n with
  | zero => intro a; simp [stringWords]
  | succ n ih =>
    intro a
    rw [stringWords_succ m n a (h a)]
    exact ⟨(ih (a + 1)).1, congrArg (· + 1) (ih (a + 1)).2⟩

end Sys2Proof.Machine
end

