-- ==== Sys2Proof/Laws/PerInstr.lean ====
section
/-! SUPPORT. Facts about every instruction as syntax, one lemma per constructor. -/

namespace Sys2Proof

/-- The operation of an instruction (30_encoding.md R72). -/
def Laws.opcodeOf : Instr → Opcode
  | .addReg _ _ _ => .add
  | .addImm _ _ _ => .add
  | .andReg _ _ _ => .and
  | .andImm _ _ _ => .and
  | .not _ _ => .not
  | .br _ _ _ _ => .br
  | .jmp _ => .jmp
  | .jsr _ => .jsr
  | .jsrr _ => .jsr
  | .ld _ _ => .ld
  | .ldi _ _ => .ldi
  | .ldr _ _ _ => .ldr
  | .lea _ _ => .lea
  | .st _ _ => .st
  | .sti _ _ => .sti
  | .str _ _ _ => .str
  | .trap _ => .trap
  | .rti _ => .rti
  | .res _ => .res
  | .getc => .trap
  | .out => .trap
  | .puts => .trap
  | .in_ => .trap
  | .putsp => .trap
  | .halt => .trap

/-! ## EncodeOpcode: the opcode field of an instruction's word is its operation's number (R71, R72) -/

/-- The opcode field of the encoding. -/
def Laws.EncodeOpcode.Statement (i : Instr) : Prop :=
  opcodeField (encode i) = (Laws.opcodeOf i).code

theorem Laws.EncodeOpcode.addReg (dr sr1 sr2 : RegNum) : Laws.EncodeOpcode.Statement (.addReg dr sr1 sr2) :=
  opcodeField_format336 _ _ _ _

theorem Laws.EncodeOpcode.addImm (dr sr1 : RegNum) (imm5 : BitVec 5) : Laws.EncodeOpcode.Statement (.addImm dr sr1 imm5) :=
  opcodeField_format336 _ _ _ _

theorem Laws.EncodeOpcode.andReg (dr sr1 sr2 : RegNum) : Laws.EncodeOpcode.Statement (.andReg dr sr1 sr2) :=
  opcodeField_format336 _ _ _ _

theorem Laws.EncodeOpcode.andImm (dr sr1 : RegNum) (imm5 : BitVec 5) : Laws.EncodeOpcode.Statement (.andImm dr sr1 imm5) :=
  opcodeField_format336 _ _ _ _

theorem Laws.EncodeOpcode.not (dr sr : RegNum) : Laws.EncodeOpcode.Statement (.not dr sr) :=
  opcodeField_format336 _ _ _ _

theorem Laws.EncodeOpcode.br (n z p : Bool) (off9 : BitVec 9) : Laws.EncodeOpcode.Statement (.br n z p off9) :=
  opcodeField_format39 _ _ _

theorem Laws.EncodeOpcode.jmp (base : RegNum) : Laws.EncodeOpcode.Statement (.jmp base) :=
  opcodeField_format336 _ _ _ _

theorem Laws.EncodeOpcode.jsr (off11 : BitVec 11) : Laws.EncodeOpcode.Statement (.jsr off11) :=
  opcodeField_format12 _ _

theorem Laws.EncodeOpcode.jsrr (base : RegNum) : Laws.EncodeOpcode.Statement (.jsrr base) :=
  opcodeField_format336 _ _ _ _

theorem Laws.EncodeOpcode.ld (dr : RegNum) (off9 : BitVec 9) : Laws.EncodeOpcode.Statement (.ld dr off9) :=
  opcodeField_format39 _ _ _

theorem Laws.EncodeOpcode.ldi (dr : RegNum) (off9 : BitVec 9) : Laws.EncodeOpcode.Statement (.ldi dr off9) :=
  opcodeField_format39 _ _ _

theorem Laws.EncodeOpcode.ldr (dr base : RegNum) (off6 : BitVec 6) : Laws.EncodeOpcode.Statement (.ldr dr base off6) :=
  opcodeField_format336 _ _ _ _

theorem Laws.EncodeOpcode.lea (dr : RegNum) (off9 : BitVec 9) : Laws.EncodeOpcode.Statement (.lea dr off9) :=
  opcodeField_format39 _ _ _

theorem Laws.EncodeOpcode.st (sr : RegNum) (off9 : BitVec 9) : Laws.EncodeOpcode.Statement (.st sr off9) :=
  opcodeField_format39 _ _ _

theorem Laws.EncodeOpcode.sti (sr : RegNum) (off9 : BitVec 9) : Laws.EncodeOpcode.Statement (.sti sr off9) :=
  opcodeField_format39 _ _ _

theorem Laws.EncodeOpcode.str (sr base : RegNum) (off6 : BitVec 6) : Laws.EncodeOpcode.Statement (.str sr base off6) :=
  opcodeField_format336 _ _ _ _

theorem Laws.EncodeOpcode.trap (vector : Byte) : Laws.EncodeOpcode.Statement (.trap vector) :=
  opcodeField_format12 _ _

theorem Laws.EncodeOpcode.rti (low : BitVec 12) : Laws.EncodeOpcode.Statement (.rti low) :=
  opcodeField_format12 _ _

theorem Laws.EncodeOpcode.res (low : BitVec 12) : Laws.EncodeOpcode.Statement (.res low) :=
  opcodeField_format12 _ _

theorem Laws.EncodeOpcode.getc : Laws.EncodeOpcode.Statement .getc :=
  opcodeField_format12 _ _

theorem Laws.EncodeOpcode.out : Laws.EncodeOpcode.Statement .out :=
  opcodeField_format12 _ _

theorem Laws.EncodeOpcode.puts : Laws.EncodeOpcode.Statement .puts :=
  opcodeField_format12 _ _

theorem Laws.EncodeOpcode.in_ : Laws.EncodeOpcode.Statement .in_ :=
  opcodeField_format12 _ _

theorem Laws.EncodeOpcode.putsp : Laws.EncodeOpcode.Statement .putsp :=
  opcodeField_format12 _ _

theorem Laws.EncodeOpcode.halt : Laws.EncodeOpcode.Statement .halt :=
  opcodeField_format12 _ _

end Sys2Proof
end

