-- ==== Sys2Proof/Laws/Step.lean ====
section
/-! SUPPORT. What a TRAP, a string service and a step can do, said once: equations by case, and one inversion lemma each for
TRAP's dispatch and for the breakpoint wait. -/

namespace Sys2Proof.Machine

/-! ## The general reading of the relations in Safety.lean -/

/-- What `setResult` leaves alone. -/
theorem definesOnly_setResult (s : State) (d : RegNum) (v : Word) : DefinesOnly d s (s.setResult d v) where
  regs := fun r h => s.setResult_reg_ne d r v h
  pc := rfl
  memory := fun _ => rfl
  run := ⟨⟨rfl, rfl, rfl⟩, rfl, rfl, rfl, rfl, rfl⟩
  streams := ⟨rfl, rfl, rfl, rfl, rfl⟩

/-- A TRAP that changes only the registers R0 and R7, COND, RunState, the phase, the output, the blocking-read input and
the cancel count has the frame of every TRAP. -/
theorem trapFrame_of_eq (s t : State) (h7 : t.reg 7 = s.pc) (hr : ∀ r, r ≠ 0 → r ≠ 7 → t.reg r = s.reg r)
    (h : t = { s with
      regs := t.regs, cond := t.cond, runState := t.runState, phase := t.phase, output := t.output,
      reads := t.reads, cancelAfter := t.cancelAfter }) : TrapFrame s t where
  link := h7
  regs := hr
  pc := by rw [h]
  memory := fun a => by rw [h]; rfl
  fatalInfo := by rw [h]
  config := ⟨by rw [h], by rw [h], by rw [h]⟩
  polls := by rw [h]
  pollDraw := by rw [h]
  confirms := by rw [h]
  bpHits := by rw [h]

/-! ## TRAP -/

theorem readValue_gives (p : Params) (r : ReadAnswer) : ReadGives p r (readValue p r) := by
  cases r <;> simp [ReadGives, readValue, zext8_toNat]

/-- What TRAP does when it answers a next state: the link, and one of the six services or nothing. -/
theorem execTrap_cases (v : Byte) (s t : State) (h : execTrap v s = .next t) :
    (v = 0x20#8 ∧ t = serviceGetc (enterTrap s)) ∨ (v = 0x21#8 ∧ t = serviceOut (enterTrap s)) ∨
    (v = 0x22#8 ∧ t = servicePuts (enterTrap s)) ∨ (v = 0x23#8 ∧ t = serviceIn (enterTrap s)) ∨
    (v = 0x24#8 ∧ t = servicePutsp (enterTrap s)) ∨ (v = 0x25#8 ∧ t = serviceHalt (enterTrap s)) ∨
    (isServiceVector v = false ∧ s.params.unknownTrapPolicy = .noop ∧ t = enterTrap s) := by
  have hv : ∀ v : Byte, ¬v = 0x20#8 ∧ ¬v = 0x21#8 ∧ ¬v = 0x22#8 ∧ ¬v = 0x23#8 ∧ ¬v = 0x24#8 ∧ ¬v = 0x25#8 →
      isServiceVector v = false := by decide
  unfold execTrap at h
  dsimp only at h
  split_ifs at h with h0 h1 h2 h3 h4 h5
  · cases h; exact .inl ⟨h0, rfl⟩
  · cases h; exact .inr (.inl ⟨h1, rfl⟩)
  · cases h; exact .inr (.inr (.inl ⟨h2, rfl⟩))
  · cases h; exact .inr (.inr (.inr (.inl ⟨h3, rfl⟩)))
  · cases h; exact .inr (.inr (.inr (.inr (.inl ⟨h4, rfl⟩))))
  · cases h; exact .inr (.inr (.inr (.inr (.inr (.inl ⟨h5, rfl⟩)))))
  · unfold serviceUnknown at h
    split at h
    · next hp => cases h; exact .inr (.inr (.inr (.inr (.inr (.inr ⟨hv v ⟨h0, h1, h2, h3, h4, h5⟩, hp, rfl⟩)))))
    · cases h

/-- The words of a string in memory are what `stringWords` finds. -/
theorem stringWords_of_stringAt (s : State) (ws : List Word) : ∀ (n : Nat) (a : Word), ws.length < n →
    StringAt s a ws → stringWords s.mem n a = (ws, true) := by
  induction ws with
  | nil =>
    intro n a hn h
    obtain ⟨n, rfl⟩ : ∃ m, n = m + 1 := ⟨n - 1, by simp at hn; omega⟩
    exact stringWords_zero _ _ _ (by simpa [State.word] using h.2)
  | cons w ws ih =>
    intro n a hn h
    obtain ⟨n, rfl⟩ : ∃ m, n = m + 1 := ⟨n - 1, by simp at hn; omega⟩
    have h0 := h.1 0 w rfl
    simp only [State.word, BitVec.add_zero] at h0
    have hoff : ∀ i : Nat, a + 1 + BitVec.ofNat 16 i = a + BitVec.ofNat 16 (i + 1) := by
      intro i
      rw [BitVec.add_assoc]
      congr 1
      apply BitVec.eq_of_toNat_eq
      simp
      omega
    rw [stringWords_succ _ _ _ (by rw [h0.1]; exact h0.2), h0.1, ih n (a + 1) (by simpa using hn) ?_]
    refine ⟨fun i w hw => ?_, ?_⟩
    · rw [hoff]
      exact h.1 (i + 1) w (by simpa using hw)
    · rw [hoff]
      exact h.2

/-- A string that ends is shorter than memory. -/
theorem stringAt_length_lt (s : State) (a : Word) (ws : List Word) (h : StringAt s a ws) : ws.length < memWords := by
  by_contra hc
  have hlt : ws.length % 65536 < ws.length := by
    have := Nat.mod_lt ws.length (show 65536 > 0 by decide)
    unfold memWords at hc
    omega
  have hw := h.1 (ws.length % 65536) _ (List.getElem?_eq_getElem hlt)
  have e : BitVec.ofNat 16 (ws.length % 65536) = BitVec.ofNat 16 ws.length := by
    apply BitVec.eq_of_toNat_eq
    simp
  rw [e, h.2] at hw
  exact hw.2 hw.1.symm

theorem flatMap_putsUnpack (ws : List Word) : ws.flatMap putsUnpack = putsBytes ws := by
  induction ws with
  | nil => rfl
  | cons w ws ih => rw [List.flatMap_cons, ih]; simp [putsUnpack, putsBytes, lowByte_eq]

theorem flatMap_putspUnpack (ws : List Word) : ws.flatMap putspUnpack = putspBytes ws := by
  induction ws with
  | nil => rfl
  | cons w ws ih =>
    have hz : highByte w = 0x00#8 ↔ bitsOf w 15 8 = 0 := by
      have : bitsOf w 15 8 < 256 := Nat.mod_lt _ (by decide)
      rw [highByte_eq, ← BitVec.toNat_inj]
      simp
      omega
    simp only [List.flatMap_cons, ih, putspUnpack, hz, putspBytes]
    split <;> simp [lowByte_eq, highByte_eq]

/-! ## The step -/

/-- `k + 1` steps are one step and `k` steps. -/
theorem run_succ (n : Nat) (s t : State) (h : step s = .next t) :
    Host.Core.run Sys2Proof.core (n + 1) s = Host.Core.run Sys2Proof.core n t := by
  have general : ∀ (M : Host.Core) (s t : M.State), M.step s = .next t → M.run (n + 1) s = M.run n t := by
    intro M s t h
    rw [Host.Core.run, h]
  exact general Sys2Proof.core s t h

/-- Waiting for bp_confirm: the three cases. -/
theorem awaitConfirm_cancel (a w : Word) (go : State → Result) (s : State) (h : s.cancelAfter = some 0) :
    awaitConfirm a w go s = .next { s with runState := .cancelled, cancelAfter := none } :=
  atCancelPoint_zero _ _ s h

theorem awaitConfirm_hold (a w : Word) (go : State → Result) (s : State) (hc : s.cancelAfter ≠ some 0)
    (hn : s.confirms = 0) : awaitConfirm a w go s =
      .next { s with cancelAfter := passPoint s.cancelAfter, phase := .bpConfirm a w } := by
  rw [awaitConfirm, atCancelPoint_pass _ _ s hc]
  simp only [hn]

theorem awaitConfirm_go (a w : Word) (go : State → Result) (s : State) (n : Nat) (hc : s.cancelAfter ≠ some 0)
    (hn : s.confirms = n + 1) : awaitConfirm a w go s =
      go { s with cancelAfter := passPoint s.cancelAfter, confirms := n, phase := .boundary } := by
  rw [awaitConfirm, atCancelPoint_pass _ _ s hc]
  simp [hn]

theorem step_of_running (s : State) (h : s.runState = .running) : step s = cycle execWord s := by
  simp [step, h]

theorem step_running_of_next (s t : State) (h : step s = .next t) : s.runState = .running := by
  unfold step at h
  split at h <;> first | assumption | cases h

theorem step_boundary_cancel (s : State) (h : s.runState = .running) (hp : s.phase = .boundary)
    (hc : s.cancelAfter = some 0) : step s = .next { s with runState := .cancelled, cancelAfter := none } := by
  have e : cycle execWord s = atCancelPoint .next (fetchThen execWord) s := by unfold cycle; rw [hp]
  rw [step_of_running s h, e]
  exact atCancelPoint_zero _ _ s hc

theorem step_boundary (s : State) (h : AtBoundary s) :
    step s = fetchThen execWord { s with cancelAfter := passPoint s.cancelAfter } := by
  have e : cycle execWord s = atCancelPoint .next (fetchThen execWord) s := by unfold cycle; rw [h.phase]
  rw [step_of_running s h.running, e]
  exact atCancelPoint_pass _ _ s h.noCancel

/-- The fetch reads through MemRead and increments PC. -/
theorem fetch_eq (s : State) :
    fetch s = ((pollIfStatus s.pc s).word s.pc, (pollIfStatus s.pc s).setPc (s.pc + 1#16)) := rfl

theorem breakpointHit_iff (s : State) (a : Word) : s.breakpointHit a = true ↔ HitsBreakpoint s a := by
  simp [State.breakpointHit, HitsBreakpoint]

end Sys2Proof.Machine
end

