-- ==== Sys2Proof/Laws/Exec.lean ====
section
/-! SUPPORT. What one instruction can do to the parts of the state that no instruction's own rule speaks of: the
configuration, the streams, the form of memory (`Evolves`), and how it can end (`Ends`, `ExecEnds`). -/

namespace Sys2Proof.Machine

/-! ## Evolves: the configuration, the streams and the form of memory -/

/-- What any part of an instruction keeps: the configuration, the confirmations and the breakpoint signals, output only
appended, the host's answers taken from the front, and memory canonical. -/
structure Evolves (s t : State) : Prop where
  config : SameConfig s t
  output : s.output <+: t.output
  polls : t.polls <:+ s.polls
  reads : t.reads <:+ s.reads
  draw : s.pollDraw ≤ t.pollDraw
  confirms : t.confirms = s.confirms
  bpHits : t.bpHits = s.bpHits
  wf : s.mem.wf → t.mem.wf

theorem Evolves.trans {s t u : State} (h : Evolves s t) (k : Evolves t u) : Evolves s u where
  config := ⟨k.config.1.trans h.config.1, k.config.2.trans h.config.2, k.config.3.trans h.config.3⟩
  output := h.output.trans k.output
  polls := k.polls.trans h.polls
  reads := k.reads.trans h.reads
  draw := h.draw.trans k.draw
  confirms := k.confirms.trans h.confirms
  bpHits := k.bpHits.trans h.bpHits
  wf := fun x => k.wf (h.wf x)

/-- Updates of the other fields. -/
theorem Evolves.of_eq {s t : State} (h : t = { s with
    regs := t.regs, pc := t.pc, cond := t.cond, runState := t.runState, fatalInfo := t.fatalInfo, phase := t.phase,
    cancelAfter := t.cancelAfter }) : Evolves s t := by
  rw [h]
  exact ⟨⟨rfl, rfl, rfl⟩, List.prefix_rfl, List.suffix_rfl, List.suffix_rfl, le_rfl, rfl, rfl, id⟩

theorem Evolves.refl (s : State) : Evolves s s := .of_eq rfl

theorem evolves_pollIfStatus (a : Word) (s : State) : Evolves s (pollIfStatus a s) := by
  by_cases ha : a = s.params.kbsrAddr
  · rw [pollIfStatus_of_eq a s ha]
    refine ⟨⟨by simp, by simp, by simp⟩, by simp, ?_, by simp, ?_, by simp, by simp, keyboardPoll_wf s⟩
    all_goals rw [keyboardPoll_eq]
    · show (inPoll s).2.polls <:+ s.polls
      unfold inPoll
      split
      · next h => rw [h]; exact List.suffix_cons _ _
      · exact List.suffix_rfl
    · show s.pollDraw ≤ (inPoll s).2.pollDraw
      unfold inPoll
      split <;> simp
  · rw [pollIfStatus_of_ne a s ha]
    exact .refl s

theorem evolves_setResult (s : State) (d : RegNum) (v : Word) : Evolves s (s.setResult d v) := .of_eq rfl

theorem evolves_memWrite (s : State) (a v : Word) : Evolves s (s.memWrite a v) :=
  ⟨⟨rfl, rfl, rfl⟩, List.prefix_rfl, List.suffix_rfl, List.suffix_rfl, le_rfl, rfl, rfl, State.memWrite_wf s a v⟩

theorem evolves_outBytes (bs : List Byte) (s : State) : Evolves s (outBytes bs s) :=
  ⟨⟨rfl, rfl, rfl⟩, List.prefix_append _ _, List.suffix_rfl, List.suffix_rfl, le_rfl, rfl, rfl, id⟩

theorem evolves_awaitRead (ph : Phase) (finish : ReadAnswer → State → State) (s : State)
    (hf : ∀ r u, Evolves u (finish r u)) : Evolves s (awaitRead ph finish s) := by
  by_cases hc : s.cancelAfter = some 0
  · rw [awaitRead_cancel _ _ s hc]
    exact .of_eq rfl
  · rcases hr : s.reads with _ | ⟨r, rs⟩
    · rw [awaitRead_hold _ _ s hc hr]
      exact .of_eq rfl
    · rw [awaitRead_answer _ _ s r rs hc hr]
      refine Evolves.trans ?_ (hf _ _)
      exact ⟨⟨rfl, rfl, rfl⟩, List.prefix_rfl, List.suffix_rfl, by rw [hr]; exact List.suffix_cons _ _, le_rfl, rfl, rfl,
        id⟩

theorem evolves_writeRest (finish : State → State) (hf : ∀ u, Evolves u (finish u)) (bs : List Byte) :
    ∀ s, Evolves s (writeRest finish bs s) := by
  induction bs with
  | nil => exact hf
  | cons b bs ih =>
    intro s
    unfold writeRest
    by_cases hc : s.cancelAfter = some 0
    · rw [atCancelPoint_zero _ _ s hc]
      exact .of_eq rfl
    · rw [atCancelPoint_pass _ _ s hc]
      refine Evolves.trans ?_ (ih _)
      exact Evolves.trans (.of_eq rfl) (evolves_outBytes [b] { s with cancelAfter := passPoint s.cancelAfter })

theorem evolves_writeString (finish : State → State) (hf : ∀ u, Evolves u (finish u)) (bs : List Byte) (s : State) :
    Evolves s (writeString finish bs s) := by
  cases bs with
  | nil => exact hf s
  | cons b bs => exact (evolves_outBytes [b] s).trans (evolves_writeRest finish hf bs _)

theorem evolves_finishGetc (r : ReadAnswer) (s : State) : Evolves s (finishGetc r s) := .of_eq rfl

theorem evolves_finishIn (r : ReadAnswer) (s : State) : Evolves s (finishIn r s) :=
  (evolves_outBytes [lowByte (readValue s.params r)] s).trans (.of_eq rfl)

/-- How a string service ends its lap. -/
theorem evolves_finishString (b : Bool) (ph : Phase) (s : State) :
    Evolves s (if b then outFlush { s with phase := .boundary } else { s with phase := ph }) := by
  split <;> exact .of_eq rfl

theorem evolves_enterTrap (s : State) : Evolves s (enterTrap s) := .of_eq rfl

theorem evolves_serviceGetc (s : State) : Evolves s (serviceGetc s) := evolves_awaitRead _ _ s evolves_finishGetc

theorem evolves_serviceIn (s : State) : Evolves s (serviceIn s) :=
  (evolves_outBytes s.params.inPrompt s).trans (evolves_awaitRead _ _ _ evolves_finishIn)

theorem evolves_servicePuts (s : State) : Evolves s (servicePuts s) :=
  evolves_writeString _ (evolves_finishString _ _) _ s

theorem evolves_servicePutsp (s : State) : Evolves s (servicePutsp s) :=
  evolves_writeString _ (evolves_finishString _ _) _ s

theorem evolves_serviceHalt (s : State) : Evolves s (serviceHalt s) :=
  (evolves_outBytes s.params.haltNotice s).trans (.of_eq rfl)

/-- Every instruction evolves the state. -/
theorem exec_evolves (i : Instr) (s t : State) (h : exec i s = .next t) : Evolves s t := by
  cases i
  case trap v =>
    rcases execTrap_cases v s t h with ⟨_, rfl⟩ | ⟨_, rfl⟩ | ⟨_, rfl⟩ | ⟨_, rfl⟩ | ⟨_, rfl⟩ | ⟨_, rfl⟩ | ⟨_, _, rfl⟩
    · exact (evolves_enterTrap s).trans (evolves_serviceGetc _)
    · exact (evolves_enterTrap s).trans (evolves_outBytes _ _)
    · exact (evolves_enterTrap s).trans (evolves_servicePuts _)
    · exact (evolves_enterTrap s).trans (evolves_serviceIn _)
    · exact (evolves_enterTrap s).trans (evolves_servicePutsp _)
    · exact (evolves_enterTrap s).trans (evolves_serviceHalt _)
    · exact evolves_enterTrap s
  all_goals
    simp only [exec, execLd, execLdi, execLdr, execSt, execSti, execStr, execGetc, execOut, execPuts, execIn, execPutsp,
      execHalt, execBr] at h
    cases h
  case getc => exact (evolves_enterTrap s).trans (evolves_serviceGetc _)
  case out => exact (evolves_enterTrap s).trans (evolves_outBytes _ _)
  case puts => exact (evolves_enterTrap s).trans (evolves_servicePuts _)
  case in_ => exact (evolves_enterTrap s).trans (evolves_serviceIn _)
  case putsp => exact (evolves_enterTrap s).trans (evolves_servicePutsp _)
  case halt => exact (evolves_enterTrap s).trans (evolves_serviceHalt _)
  case ld => exact (evolves_pollIfStatus _ _).trans (evolves_setResult ..)
  case ldi => exact (evolves_pollIfStatus _ _).trans ((evolves_pollIfStatus _ _).trans (evolves_setResult ..))
  case ldr => exact (evolves_pollIfStatus _ _).trans (evolves_setResult ..)
  case st => exact evolves_memWrite ..
  case sti => exact (evolves_pollIfStatus _ _).trans (evolves_memWrite ..)
  case str => exact evolves_memWrite ..
  case br => split <;> exact .of_eq rfl
  all_goals exact .of_eq rfl

theorem evolves_fetch (s : State) : Evolves s (fetch s).2 := (evolves_pollIfStatus _ _).trans (.of_eq rfl)

theorem evolves_writeDiagnostic (a w : Word) (s : State) : Evolves s (writeDiagnostic a w s) := evolves_outBytes _ s

/-- What the report of a breakpoint keeps: an instruction's `Evolves`, but for the one signal added. -/
theorem evolves_reportBreakpoint (a w : Word) (s : State) :
    Evolves (bpHit a w s) (reportBreakpoint a w s) := evolves_writeDiagnostic a w _

/-! ## Ends: RunState, FatalInfo and the phase -/

/-- The phase is as before, or no breakpoint hold. -/
def PhaseEnds (s t : State) : Prop := t.phase = s.phase ∨ ∀ a w, t.phase ≠ .bpConfirm a w

theorem PhaseEnds.trans {s t u : State} (h : PhaseEnds s t) (k : PhaseEnds t u) : PhaseEnds s u := by
  rcases k with k | k
  · rcases h with h | h
    · exact .inl (k.trans h)
    · exact .inr fun a w => by rw [k]; exact h a w
  · exact .inr k

/-- How a part of an instruction ends: it goes on, or a cancel that was pending ends the run. -/
structure Ends (s t : State) : Prop where
  run : t.runState = s.runState ∨ (t.runState = .cancelled ∧ s.cancelAfter ≠ none)
  fatalInfo : t.fatalInfo = s.fatalInfo
  phase : PhaseEnds s t

theorem Ends.trans {s t u : State} (h : Ends s t) (hc : t.cancelAfter ≠ none → s.cancelAfter ≠ none) (k : Ends t u) :
    Ends s u where
  run := by
    rcases k.run with k | ⟨k, c⟩
    · rw [k]; exact h.run
    · exact .inr ⟨k, hc c⟩
  fatalInfo := k.fatalInfo.trans h.fatalInfo
  phase := h.phase.trans k.phase

/-- Updates of other fields than the three. -/
theorem Ends.of_eq {s t : State} (h1 : t.runState = s.runState) (h2 : t.fatalInfo = s.fatalInfo)
    (h3 : t.phase = s.phase) : Ends s t := ⟨.inl h1, h2, .inl h3⟩

theorem passPoint_ne_none (c : Option Nat) : passPoint c ≠ none → c ≠ none := by
  cases c <;> simp [passPoint]

theorem ends_awaitRead (ph : Phase) (hph : ∀ a w, ph ≠ .bpConfirm a w) (finish : ReadAnswer → State → State) (s : State)
    (hf : ∀ r u, Ends u (finish r u)) : Ends s (awaitRead ph finish s) := by
  by_cases hc : s.cancelAfter = some 0
  · rw [awaitRead_cancel _ _ s hc]
    exact ⟨.inr ⟨rfl, by rw [hc]; simp⟩, rfl, .inl rfl⟩
  · rcases hr : s.reads with _ | ⟨r, rs⟩
    · rw [awaitRead_hold _ _ s hc hr]
      exact ⟨.inl rfl, rfl, .inr hph⟩
    · rw [awaitRead_answer _ _ s r rs hc hr]
      refine Ends.trans ?_ ?_ (hf r _)
      · exact ⟨.inl rfl, rfl, .inr fun a w h => by cases h⟩
      · exact passPoint_ne_none _

theorem ends_writeRest (finish : State → State) (hf : ∀ u, Ends u (finish u)) (bs : List Byte) :
    ∀ s, Ends s (writeRest finish bs s) := by
  induction bs with
  | nil => exact hf
  | cons b bs ih =>
    intro s
    unfold writeRest
    by_cases hc : s.cancelAfter = some 0
    · rw [atCancelPoint_zero _ _ s hc]
      exact ⟨.inr ⟨rfl, by rw [hc]; simp⟩, rfl, .inl rfl⟩
    · rw [atCancelPoint_pass _ _ s hc]
      exact Ends.trans (t := outWrite b { s with cancelAfter := passPoint s.cancelAfter }) (.of_eq rfl rfl rfl)
        (passPoint_ne_none _) (ih _)

theorem ends_writeString (finish : State → State) (hf : ∀ u, Ends u (finish u)) (bs : List Byte) (s : State) :
    Ends s (writeString finish bs s) := by
  cases bs with
  | nil => exact hf s
  | cons b bs => exact Ends.trans (t := outWrite b s) (.of_eq rfl rfl rfl) id (ends_writeRest finish hf bs _)

theorem ends_finishString (b : Bool) (ph : Phase) (hph : ∀ a w, ph ≠ .bpConfirm a w) (s : State) :
    Ends s (if b then outFlush { s with phase := .boundary } else { s with phase := ph }) := by
  split
  · exact ⟨.inl rfl, rfl, .inr fun a w h => by cases h⟩
  · exact ⟨.inl rfl, rfl, .inr hph⟩

theorem ends_serviceGetc (s : State) : Ends s (serviceGetc (enterTrap s)) :=
  Ends.trans (t := enterTrap s) (.of_eq rfl rfl rfl) id (ends_awaitRead _ (by simp) _ _ fun _ _ => .of_eq rfl rfl rfl)

theorem ends_serviceIn (s : State) : Ends s (serviceIn (enterTrap s)) :=
  Ends.trans (t := outBytes s.params.inPrompt (enterTrap s)) (.of_eq rfl rfl rfl) id
    (ends_awaitRead _ (by simp) _ _ fun _ _ => .of_eq rfl rfl rfl)

theorem ends_servicePuts (s : State) : Ends s (servicePuts (enterTrap s)) :=
  Ends.trans (t := enterTrap s) (.of_eq rfl rfl rfl) id (ends_writeString _ (ends_finishString _ _ (by simp)) _ _)

theorem ends_servicePutsp (s : State) : Ends s (servicePutsp (enterTrap s)) :=
  Ends.trans (t := enterTrap s) (.of_eq rfl rfl rfl) id (ends_writeString _ (ends_finishString _ _ (by simp)) _ _)

/-- How an instruction ends: as its parts do, or by HALT, RTI or RES. -/
inductive ExecEnds (i : Instr) (s t : State) : Prop where
  | ends (h : Ends s t)
  | halt (hi : i = .halt ∨ i = .trap 0x25#8) (h : t.runState = .halted) (hf : t.fatalInfo = s.fatalInfo)
      (hp : t.phase = s.phase)
  | rti (low : BitVec 12) (hi : i = .rti low)
      (h : t = raiseFatal { cause := .rti, addr := s.pc - 1#16, word := rtiWord low } s)
  | res (low : BitVec 12) (hi : i = .res low)
      (h : t = raiseFatal { cause := .res, addr := s.pc - 1#16, word := resWord low } s)

theorem exec_ends (i : Instr) (s t : State) (h : exec i s = .next t) : ExecEnds i s t := by
  cases i
  case trap v =>
    rcases execTrap_cases v s t h with ⟨_, rfl⟩ | ⟨_, rfl⟩ | ⟨_, rfl⟩ | ⟨_, rfl⟩ | ⟨_, rfl⟩ | ⟨rfl, rfl⟩ | ⟨_, _, rfl⟩
    · exact .ends (ends_serviceGetc s)
    · exact .ends (.of_eq rfl rfl rfl)
    · exact .ends (ends_servicePuts s)
    · exact .ends (ends_serviceIn s)
    · exact .ends (ends_servicePutsp s)
    · exact .halt (.inr rfl) rfl rfl rfl
    · exact .ends (.of_eq rfl rfl rfl)
  case rti low => cases h; exact .rti low rfl rfl
  case res low => cases h; exact .res low rfl rfl
  case halt => cases h; exact .halt (.inl rfl) rfl rfl rfl
  case getc => cases h; exact .ends (ends_serviceGetc s)
  case in_ => cases h; exact .ends (ends_serviceIn s)
  case puts => cases h; exact .ends (ends_servicePuts s)
  case putsp => cases h; exact .ends (ends_servicePutsp s)
  case br n z p off9 =>
    simp only [exec, execBr] at h
    cases h
    split <;> exact .ends (.of_eq rfl rfl rfl)
  all_goals
    simp only [exec, execLd, execLdi, execLdr, execSti] at h
    cases h
    refine .ends (.of_eq ?_ ?_ ?_) <;> first | rfl | simp

/-- An instruction answers a next state, or refuses an unknown vector under the policy `refuse`. -/
theorem exec_total (i : Instr) (s : State) : (∃ t, exec i s = .next t) ∨
    (s.params.unknownTrapPolicy = .refuse ∧ ∃ v, i = .trap v ∧ exec i s = .refused (.unknownTrap v)) := by
  cases i
  case trap v =>
    simp only [exec, execTrap, serviceUnknown]
    split_ifs <;> try exact .inl ⟨_, rfl⟩
    cases hp : (enterTrap s).params.unknownTrapPolicy
    · exact .inl ⟨_, rfl⟩
    · exact .inr ⟨hp, v, rfl, rfl⟩
  all_goals exact .inl ⟨_, rfl⟩

end Sys2Proof.Machine
end

