-- ==== Sys2Proof/Tests/Slice0.lean ====
section
/-! SUPPORT. The model's own tests, with expected results from spec/95_test_vectors.md (W and V numbers), and for every
obligation with hypotheses a witness that meets them. -/

namespace Sys2Proof.Tests

open Sys2Proof Sys2Proof.Machine

/-! ## Helpers -/

/-- The default addresses, and concrete values for the OPEN parameters. -/
def params : Params where
  kbsrAddr := 0xFE00#16
  kbdrAddr := 0xFE02#16
  haltNotice := [0x2A#8]
  inPrompt := [0x3E#8]
  eofWord := 0xFFFF#16
  unknownTrapPolicy := .noop

/-- Reset with those parameters and a memory. -/
def boot0 (m : Memory) : State := { State.reset with params := params, mem := m }

/-- The same, with one instruction word at 0x3000. -/
def one (w : Word) : State := boot0 [(0x3000, w)]

/-- The next state, if there is one. -/
def next? : Result → Option State
  | .next t => some t
  | .fault _ => none
  | .refused _ => none

/-- A register, COND and PC after one step. -/
def after (r : RegNum) (s : State) : Option (Word × Cond × Word) := (next? (step s)).map fun t => (t.reg r, t.cond, t.pc)

/-- A memory word, COND and PC after one step. -/
def stored (a : Word) (s : State) : Option (Word × Cond × Word) := (next? (step s)).map fun t => (t.word a, t.cond, t.pc)

/-- The output, R7 and RunState after one step. -/
def written (s : State) : Option (List Byte × Word × RunState) :=
  (next? (step s)).map fun t => (t.output, t.reg 7, t.runState)

/-! ## WellFormed: the one check, with ill-formed terms -/

theorem test_wf_refuses_first_service_vector : (Instr.trap 0x20#8).wellFormed = false := by decide
theorem test_wf_refuses_last_service_vector : (Instr.trap 0x25#8).wellFormed = false := by decide

/-! ## Decoding: words written out bit by bit from the formats of 30_encoding.md R76 -/

theorem test_decode_operate :
    decode 0b0001_000_001_0_00_010#16 = .addReg 0 1 2 ∧ decode 0b0001_010_010_1_10000#16 = .addImm 2 2 0x10#5 ∧
    decode 0b0101_010_011_0_00_100#16 = .andReg 2 3 4 ∧ decode 0b0101_001_001_1_10000#16 = .andImm 1 1 0x10#5 ∧
    decode 0b1001_001_010_111111#16 = .not 1 2 := by decide

theorem test_decode_control :
    decode 0b0000_100_000000101#16 = .br true false false 5#9 ∧ decode 0b0000_010_000000101#16 = .br false true false 5#9 ∧
    decode 0b0000_001_000000101#16 = .br false false true 5#9 ∧ decode 0b1100_000_010_000000#16 = .jmp 2 ∧
    decode 0b0100_1_10000000000#16 = .jsr 0x400#11 ∧ decode 0b0100_0_00_011_000000#16 = .jsrr 3 := by decide

theorem test_decode_load_store :
    decode 0b0010_000_000000010#16 = .ld 0 2#9 ∧ decode 0b1010_001_000000001#16 = .ldi 1 1#9 ∧
    decode 0b0110_010_011_111111#16 = .ldr 2 3 0x3F#6 ∧ decode 0b1110_101_000000000#16 = .lea 5 0#9 ∧
    decode 0b0011_000_000000010#16 = .st 0 2#9 ∧ decode 0b1011_001_000000001#16 = .sti 1 1#9 ∧
    decode 0b0111_010_011_000001#16 = .str 2 3 1#6 := by decide

theorem test_decode_trap :
    decode 0b1111_0000_00100000#16 = .getc ∧ decode 0b1111_0000_00100001#16 = .out ∧
    decode 0b1111_0000_00100010#16 = .puts ∧ decode 0b1111_0000_00100011#16 = .in_ ∧
    decode 0b1111_0000_00100100#16 = .putsp ∧ decode 0b1111_0000_00100101#16 = .halt ∧
    decode 0b1111_0000_00011111#16 = .trap 0x1F#8 := by decide

theorem test_decode_reserved :
    decode 0b1000_000000000000#16 = .rti 0#12 ∧ decode 0b1101_111111111111#16 = .res 0xFFF#12 := by decide

/-- V5, V15, V35, V74: ignored bits. -/
theorem test_decode_ignores_unnamed_bits :
    decode 0x105A#16 = decode 0x1042#16 ∧ decode 0x9280#16 = decode 0x92BF#16 ∧ decode 0x47FF#16 = decode 0x41C0#16 ∧
    decode 0xFF25#16 = decode 0xF025#16 ∧ decode 0xCE3F#16 = decode 0xC000#16 := by decide

/-- K7: the ignored bits of an encoded NOT are all ones. -/
theorem test_encode_not : encode (.not 1 2) = 0x92BF#16 := by decide

theorem test_decode_table_word :
    decodeTableWord 16 0x1042 = some (.addReg 0 1 2) ∧ decodeTableWord 16 0x11042 = none := by decide

/-- W1. -/
theorem test_sext_examples :
    sext 5 0b11111#16 = some 0xFFFF#16 ∧ sext 5 0b10000#16 = some 0xFFF0#16 ∧ sext 6 0b100000#16 = some 0xFFE0#16 ∧
    sext 9 0x0FF#16 = some 0x00FF#16 ∧ sext 11 0x400#16 = some 0xFC00#16 := by decide

/-- W2. -/
theorem test_flags_examples :
    condOf 0x0000#16 = .zero ∧ condOf 0x8000#16 = .negative ∧ condOf 0x0001#16 = .positive ∧
    condOf 0x7FFF#16 = .positive ∧ condOf 0xFFFF#16 = .negative := by decide

/-! ## One step of each instruction -/

/-- V2: signed overflow wraps. -/
theorem test_add_reg :
    after 3 (((one 0x1642#16).setReg 1 0x7FFF#16).setReg 2 1#16) = some (0x8000#16, .negative, 0x3001#16) := by decide

/-- V4: DR = SR1 = SR2, the carry lost. -/
theorem test_add_reg_same : after 0 ((one 0x1000#16).setReg 0 0x8000#16) = some (0x0000#16, .zero, 0x3001#16) := by decide

/-- V7. -/
theorem test_add_imm : after 2 ((one 0x14B0#16).setReg 2 0x0010#16) = some (0x0000#16, .zero, 0x3001#16) := by decide

/-- V10. -/
theorem test_and_reg :
    after 2 (((one 0x54C4#16).setReg 3 0x8001#16).setReg 4 0x8000#16) = some (0x8000#16, .negative, 0x3001#16) := by decide

/-- V13. -/
theorem test_and_imm : after 1 ((one 0x5270#16).setReg 1 0xABCD#16) = some (0xABC0#16, .negative, 0x3001#16) := by decide

/-- V14. -/
theorem test_not : after 1 ((one 0x92BF#16).setReg 2 0x00FF#16) = some (0xFF00#16, .negative, 0x3001#16) := by decide

/-- V21. -/
theorem test_br_taken :
    after 0 { one 0x0805#16 with cond := .negative } = some (0x0000#16, .negative, 0x3006#16) := by decide

/-- V23. -/
theorem test_br_back :
    after 0 { one 0x07FE#16 with cond := .positive } = some (0x0000#16, .positive, 0x2FFF#16) := by decide

/-- V28. -/
theorem test_jmp : after 7 ((one 0xC080#16).setReg 2 0x1234#16) = some (0x0000#16, .zero, 0x1234#16) := by decide

/-- V31: the target wraps. -/
theorem test_jsr : after 7 ((boot0 [(0x0100, 0x4C00#16)]).setPc 0x0100#16) = some (0x0101#16, .zero, 0xFD01#16) := by decide

/-- V33. -/
theorem test_jsrr : after 7 ((one 0x40C0#16).setReg 3 0x4000#16) = some (0x3001#16, .zero, 0x4000#16) := by decide

/-- V34: the base is read after the R7 write. -/
theorem test_jsrr_seven : after 7 ((one 0x41C0#16).setReg 7 0x5000#16) = some (0x3001#16, .zero, 0x3001#16) := by decide

/-- V40. -/
theorem test_ld :
    after 0 (boot0 [(0x3000, 0x2002#16), (0x3003, 0x1234#16)]) = some (0x1234#16, .positive, 0x3001#16) := by decide

/-- V41. -/
theorem test_ldi : after 1 (boot0 [(0x3000, 0xA201#16), (0x3002, 0x4000#16), (0x4000, 0x8001#16)]) =
    some (0x8001#16, .negative, 0x3001#16) := by decide

/-- V43: the poll takes the character, and its two writes are seen. -/
theorem test_ldi_polls :
    (next? (step { boot0 [(0x3000, 0xA001#16), (0x3002, 0xFE00#16)] with polls := [some 0x61#8, none] })).map
      (fun t => (t.reg 0, t.cond, t.word 0xFE00#16, t.word 0xFE02#16, t.polls.length)) =
    some (0x8000#16, .negative, 0x8000#16, 0x0061#16, 1) := by decide

/-- V46: the address wraps. -/
theorem test_ldr :
    after 2 (boot0 [(0x3000, 0x64FF#16), (0xFFFF, 0xCAFE#16)]) = some (0xCAFE#16, .negative, 0x3001#16) := by decide

/-- V45: DR = BaseR. -/
theorem test_ldr_same : after 1 ((boot0 [(0x3000, 0x6240#16), (0x4000, 0x1111#16)]).setReg 1 0x4000#16) =
    some (0x1111#16, .positive, 0x3001#16) := by decide

/-- V50. -/
theorem test_lea :
    after 5 ((boot0 [(0x9000, 0xEA00#16)]).setPc 0x9000#16) = some (0x9001#16, .negative, 0x9001#16) := by decide

/-- V51. -/
theorem test_lea_wraps :
    after 0 ((boot0 [(0xFFFF, 0xE000#16)]).setPc 0xFFFF#16) = some (0x0000#16, .zero, 0x0000#16) := by decide

/-- V52. -/
theorem test_st : stored 0x3003#16 ((one 0x3002#16).setReg 0 0xBEEF#16) = some (0xBEEF#16, .zero, 0x3001#16) := by decide

/-- V53. -/
theorem test_sti : stored 0x4000#16 ((boot0 [(0x3000, 0xB201#16), (0x3002, 0x4000#16)]).setReg 1 0x0042#16) =
    some (0x0042#16, .zero, 0x3001#16) := by decide

/-- V54. -/
theorem test_str : stored 0x4001#16 (((one 0x74C1#16).setReg 2 0x0007#16).setReg 3 0x4000#16) =
    some (0x0007#16, .zero, 0x3001#16) := by decide

/-- V56: a store at KBSR is plain. -/
theorem test_str_status : stored 0xFE00#16 (((one 0x7040#16).setReg 0 0x1234#16).setReg 1 0xFE00#16) =
    some (0x1234#16, .zero, 0x3001#16) := by decide

/-- V62. -/
theorem test_getc :
    after 0 { one 0xF020#16 with reads := [.char 0xE9#8] } = some (0x00E9#16, .positive, 0x3001#16) := by decide

/-- V63. -/
theorem test_getc_eof : after 0 { one 0xF020#16 with reads := [.eof] } = some (0xFFFF#16, .negative, 0x3001#16) := by decide

/-- V64. -/
theorem test_out : written ((one 0xF021#16).setReg 0 0x0148#16) = some ([0x48#8], 0x3001#16, .running) := by decide

/-- V69. -/
theorem test_in :
    (next? (step { one 0xF023#16 with reads := [.char 0x79#8] })).map (fun t => (t.output, t.reg 0, t.cond)) =
    some ([0x3E#8, 0x79#8], 0x0079#16, .positive) := by decide

/-- V73. -/
theorem test_halt : written ((boot0 [(0x3001, 0xF025#16)]).setPc 0x3001#16) = some ([0x2A#8], 0x3002#16, .halted) := by
  decide

/-- V75. -/
theorem test_trap_unknown : written ((one 0xF026#16).setReg 0 5#16) = some ([], 0x3001#16, .running) := by decide

/-- V81. -/
theorem test_rti :
    (next? (step (one 0x8FFF#16))).map (fun t => (t.runState, t.fatalInfo, t.pc)) =
    some (.fatal, some { cause := .rti, addr := 0x3000#16, word := 0x8FFF#16 }, 0x3001#16) := by decide

/-- V83. -/
theorem test_res :
    (next? (step (one 0xD000#16))).map (fun t => (t.runState, t.fatalInfo, t.pc)) =
    some (.fatal, some { cause := .res, addr := 0x3000#16, word := 0xD000#16 }, 0x3001#16) := by decide

/-! ## The step, the debugger, reset and loading -/

/-- V90. -/
theorem test_fetch_wraps : after 0 ((boot0 []).setPc 0xFFFF#16) = some (0x0000#16, .zero, 0x0000#16) := by decide

/-- V92: a fetch at KBSR polls and reads RTI. -/
theorem test_fetch_polls :
    (next? (step { (boot0 []).setPc 0xFE00#16 with polls := [some 0x61#8] })).map
      (fun t => (t.word 0xFE02#16, t.fatalInfo, t.pc)) =
    some (0x0061#16, some { cause := .rti, addr := 0xFE00#16, word := 0x8000#16 }, 0xFE01#16) := by decide

/-- V95: no check with the debugger off. -/
theorem test_breakpoint_off :
    (next? (step { one 0x0000#16 with breakpoints := [0x3000#16] })).map (·.phase) = some .boundary := by decide

/-- V94: a breakpoint on a RES is signalled and holds first. -/
theorem test_breakpoint_holds :
    (next? (step { one 0xD000#16 with debugEnabled := true, breakpoints := [0x3000#16] })).map
      (fun t => (t.phase, t.runState, t.bpHits)) =
    some (.bpConfirm 0x3000#16 0xD000#16, .running, [(0x3000#16, 0xD000#16)]) := by decide

/-- V94: with the confirmation at hand it is signalled all the same, and is fatal. -/
theorem test_breakpoint_confirmed :
    (next? (step { one 0xD000#16 with debugEnabled := true, breakpoints := [0x3000#16], confirms := 1 })).map
      (fun t => (t.fatalInfo, t.bpHits)) =
    some (some { cause := .res, addr := 0x3000#16, word := 0xD000#16 }, [(0x3000#16, 0xD000#16)]) := by decide

/-- V99. -/
theorem test_cancel_at_boundary :
    (next? (step { one 0xF025#16 with cancelAfter := some 0 })).map (fun t => (t.runState, t.pc, t.output)) =
    some (.cancelled, 0x3000#16, []) := by decide

theorem test_terminal_takes_no_step :
    step { one 0x0000#16 with runState := .halted } = .fault (.terminal .halted) := rfl

/-- V97. -/
theorem test_load_drops_excess :
    loadImage [] { origin := 0xFFFE#16, words := [0x1111#16, 0x2222#16, 0x3333#16] } =
    [(0xFFFE, 0x1111#16), (0xFFFF, 0x2222#16)] := by decide

/-- V98. -/
theorem test_load_order :
    (boot [{ origin := 0x3000#16, words := [0x1111#16, 0x2222#16] }, { origin := 0x3001#16, words := [0x3333#16] }]
      false []).mem = [(0x3000, 0x1111#16), (0x3001, 0x3333#16)] := by decide

/-- Writing 0x0000 removes the entry. -/
theorem test_write_zero_removes : Memory.write [(5, 1#16), (9, 2#16)] 5 0x0000#16 = [(9, 2#16)] := by decide

theorem test_with_fetch_word : after 0 (State.reset.withFetchWord 16 0xE002) = some (0x3003#16, .positive, 0x3001#16) := by
  decide

/-! ## Witnesses: the hypotheses of the obligations can be met -/

theorem witness_wellFormed :
    (Instr.trap 0x1F#8).wellFormed = true ∧ (Instr.trap 0x26#8).wellFormed = true ∧ Instr.halt.wellFormed = true ∧
    (Instr.addImm 7 7 31#5).wellFormed = true := by decide

/-- EveryWordIsOneRow, second part: a service's row, and the immediate form's. -/
theorem witness_row :
    (0xFF25#16 &&& Instr.halt.row.2 = Instr.halt.row.1 ∧ ∀ v, Instr.halt ≠ .trap v) ∧
    (0x1FFF#16 &&& (Instr.addImm 0 0 0#5).row.2 = (Instr.addImm 0 0 0#5).row.1 ∧ ∀ v, Instr.addImm 0 0 0#5 ≠ .trap v) :=
  ⟨⟨by decide, fun _ h => by cases h⟩, ⟨by decide, fun _ h => by cases h⟩⟩

/-- IgnoredBitsPlayNoPart: RTI and RES answer a next state. -/
theorem witness_reserved_next :
    (∃ t, exec (.rti 0xFFF#12) (one 0#16) = .next t) ∧ ∃ t, exec (.res 0#12) (one 0#16) = .next t :=
  ⟨⟨_, rfl⟩, ⟨_, rfl⟩⟩

/-- SignAndZeroExtension: both sign bits at both ends of the range of N; outside it `sext` has no value. -/
theorem witness_extension :
    bitsOf 0xFFFE#16 0 0 = 0 ∧ bitsOf 0x0001#16 0 0 = 1 ∧ bitsOf 0x7FFF#16 15 15 = 0 ∧ bitsOf 0x8000#16 15 15 = 1 ∧
    sext 1 0x0001#16 = some 0xFFFF#16 ∧ sext 16 0x8000#16 = some 0x8000#16 ∧
    sext 0 0x0001#16 = none ∧ sext 17 0x0001#16 = none := by decide

/-- UpdateFlagsFollowsTheValue: the three cases at their boundaries. -/
theorem witness_flags :
    (one 0#16).reg 0 = 0x0000#16 ∧
    (((one 0#16).setReg 0 0x8000#16).reg 0 ≠ 0x0000#16 ∧ bitsOf (((one 0#16).setReg 0 0x8000#16).reg 0) 15 15 = 1) ∧
    (((one 0#16).setReg 0 0x7FFF#16).reg 0 ≠ 0x0000#16 ∧ bitsOf (((one 0#16).setReg 0 0x7FFF#16).reg 0) 15 15 = 0) := by
  decide

/-- The word conditions of the Operate, Control, Memory, TRAP and reserved statements: the least and greatest words of
each row. -/
theorem witness_words :
    (0x1000#16 &&& 0xF020#16 = 0x1000#16 ∧ 0x1FDF#16 &&& 0xF020#16 = 0x1000#16) ∧
    (0x1020#16 &&& 0xF020#16 = 0x1020#16 ∧ 0x1FFF#16 &&& 0xF020#16 = 0x1020#16) ∧
    (0x5000#16 &&& 0xF020#16 = 0x5000#16 ∧ 0x5FDF#16 &&& 0xF020#16 = 0x5000#16) ∧
    (0x5020#16 &&& 0xF020#16 = 0x5020#16 ∧ 0x5FFF#16 &&& 0xF020#16 = 0x5020#16) ∧
    (0x9000#16 &&& 0xF000#16 = 0x9000#16 ∧ 0x0FFF#16 &&& 0xF000#16 = 0x0000#16) ∧
    (0xCFFF#16 &&& 0xF000#16 = 0xC000#16 ∧ 0x4FFF#16 &&& 0xF800#16 = 0x4800#16) ∧
    (0x47FF#16 &&& 0xF800#16 = 0x4000#16 ∧ 0x2FFF#16 &&& 0xF000#16 = 0x2000#16) ∧
    (0xAFFF#16 &&& 0xF000#16 = 0xA000#16 ∧ 0x6FFF#16 &&& 0xF000#16 = 0x6000#16) ∧
    (0xEFFF#16 &&& 0xF000#16 = 0xE000#16 ∧ 0x3FFF#16 &&& 0xF000#16 = 0x3000#16) ∧
    (0xBFFF#16 &&& 0xF000#16 = 0xB000#16 ∧ 0x7FFF#16 &&& 0xF000#16 = 0x7000#16) ∧
    (0x8FFF#16 &&& 0xF000#16 = 0x8000#16 ∧ 0xDFFF#16 &&& 0xF000#16 = 0xD000#16) := by decide

/-- TrapDispatchesByVector: the six vectors and both neighbours. -/
theorem witness_vectors :
    0xFF20#16 &&& 0xF000#16 = 0xF000#16 ∧ bitsOf 0xFF20#16 7 0 = 0x20 ∧ bitsOf 0xF021#16 7 0 = 0x21 ∧
    bitsOf 0xF022#16 7 0 = 0x22 ∧ bitsOf 0xF023#16 7 0 = 0x23 ∧ bitsOf 0xF024#16 7 0 = 0x24 ∧
    bitsOf 0xF025#16 7 0 = 0x25 ∧ bitsOf 0xF01F#16 7 0 < 0x20 ∧ 0x25 < bitsOf 0xF026#16 7 0 := by decide

/-- W3: R2 = sext_5(0b11010). -/
theorem witness_forms_agree : ((one 0#16).setReg 2 0xFFFA#16).reg 2 = signedWord 0b11010#5 := by decide

/-- BranchOnCond: each reason to take it, and none (R100's flags at reset: ZERO). -/
theorem witness_branch :
    (true = true ∧ { one 0#16 with cond := .negative }.cond = .negative) ∧ (true = true ∧ (one 0#16).cond = .zero) ∧
    (true = true ∧ { one 0#16 with cond := .positive }.cond = .positive) ∧
    ¬ ((true = true ∧ (one 0#16).cond = .negative) ∨ (false = true ∧ (one 0#16).cond = .zero) ∨
      (true = true ∧ (one 0#16).cond = .positive)) := by decide

theorem witness_branch_never : (0x01FF#16 : Word).toNat ≤ 0x01FF := by decide

/-- CallThroughRegister: both clauses. -/
theorem witness_jsrr_base : (6 : RegNum) ≠ 7 ∧ (7 : RegNum) = 7 := by decide

/-- The keyboard addresses differ (D3's constraint), after reset and in these tests. -/
theorem witness_keyboard_addresses :
    State.reset.params.kbsrAddr ≠ State.reset.params.kbdrAddr ∧ (one 0#16).params.kbsrAddr ≠ (one 0#16).params.kbdrAddr := by
  decide

/-- MemReadPollsAtStatus: a poll that finds a character, one that finds none, and a free draw. -/
theorem witness_polls :
    PollAnswer { one 0#16 with polls := [some 0x61#8] } (some 0x61#8) { one 0#16 with polls := [] } ∧
    PollAnswer { one 0#16 with polls := [none] } none { one 0#16 with polls := [] } ∧
    PollAnswer (one 0#16) (Config.freePoll 0) { one 0#16 with pollDraw := 1 } :=
  ⟨.given _ [] rfl, .given _ [] rfl, .drawn rfl⟩

theorem witness_memory : Memory.wf [(0, 1#16), (0xFFFF, 2#16)] ∧ Memory.wf [] := by decide

/-- ImagesLoadInOrder: the last word that fits (V97), and an address no word stands at. -/
theorem witness_image :
    ([0x1111#16, 0x2222#16, 0x3333#16] : List Word)[1]? = some 0x2222#16 ∧
    (0xFFFE#16 : Word).toNat + 1 = (0xFFFF#16 : Word).toNat ∧
    ∀ k : Nat, k < ([0x1111#16, 0x2222#16, 0x3333#16] : List Word).length →
      (0xFFFE#16 : Word).toNat + k ≠ (0x0000#16 : Word).toNat :=
  ⟨rfl, by decide, by decide⟩

theorem witness_failed_image : (none : Option Image) ∈ [some { origin := 0x3000#16, words := [] }, none] := by decide

/-- W4: A = 0x3004, P = 0x3010. -/
theorem witness_ldi_round_trip :
    let s := (((boot0 []).setReg 1 0x3010#16).setReg 2 0x1234#16).setPc 0x3001#16
    let A := s.pc + signedWord 3#9
    let P := s.reg 1
    A ≠ s.params.kbsrAddr ∧ P ≠ s.params.kbsrAddr ∧ A ≠ P ∧
    ∃ t1 t2 t3, exec (.st 1 3#9) s = .next t1 ∧ 0x3002#16 + signedWord 14#9 = P ∧
      exec (.st 2 14#9) (t1.setPc 0x3002#16) = .next t2 ∧ 0x3003#16 + signedWord 1#9 = A ∧
      exec (.ldi 3 1#9) (t2.setPc 0x3003#16) = .next t3 :=
  ⟨by decide, by decide, by decide, _, _, _, rfl, by decide, rfl, by decide, rfl⟩

theorem no_breakpoint (s : State) (a : Word) (h : s.debugEnabled = false) : ¬ HitsBreakpoint s a := by
  rintro ⟨h', -⟩
  rw [h] at h'
  cases h'

/-- StepRunsTheDecodedInstruction: the reset state is one, and so is a state with a HALT at PC. -/
theorem witness_step :
    AtBoundary State.reset ∧ ¬ HitsBreakpoint State.reset State.reset.pc ∧
    AtBoundary (one 0xF025#16) ∧ ¬ HitsBreakpoint (one 0xF025#16) (one 0xF025#16).pc ∧
    (one 0xF025#16).pc ≠ (one 0xF025#16).params.kbsrAddr ∧ decode ((one 0xF025#16).word (one 0xF025#16).pc) = .halt ∧
    Instr.halt.wellFormed = true :=
  ⟨⟨rfl, rfl, by decide⟩, no_breakpoint _ _ rfl, ⟨rfl, rfl, by decide⟩, no_breakpoint _ _ rfl, by decide, by decide, rfl⟩

/-- V58, after the fetch of the ST. -/
theorem witness_store_next_fetch :
    let s := ((boot0 []).setPc 0x3001#16).setReg 0 0xF025#16
    AtBoundary s ∧ ¬ HitsBreakpoint s s.pc ∧ s.pc ≠ s.params.kbsrAddr ∧ ∃ t, exec (.st 0 0#9) s = .next t :=
  ⟨⟨rfl, rfl, by decide⟩, no_breakpoint _ _ rfl, by decide, _, rfl⟩

/-- V93's breakpoint. -/
def atBreakpoint (n : Nat) : State :=
  { boot0 [(0x3000, 0x5020#16), (0x3001, 0xF025#16)] with
    pc := 0x3001#16, debugEnabled := true, breakpoints := [0x3001#16], confirms := n }

/-- BreakpointHoldsUntilConfirmed, without and with a confirmation; BreakpointIsObservational. -/
theorem witness_breakpoint (n : Nat) :
    (atBreakpoint n).runState = .running ∧ (atBreakpoint n).phase = .boundary ∧ (atBreakpoint n).cancelAfter = none ∧
    HitsBreakpoint (atBreakpoint n) (atBreakpoint n).pc ∧ (atBreakpoint n).confirms = n ∧
    ∃ t, step { atBreakpoint 1 with debugEnabled := false, confirms := 0 } = .next t :=
  ⟨rfl, rfl, rfl, ⟨rfl, List.mem_singleton.2 rfl⟩, rfl, _, rfl⟩

/-- BreakpointHoldsUntilConfirmed, a cancel due at the wait. -/
theorem witness_breakpoint_cancel :
    let s := { atBreakpoint 1 with cancelAfter := some 1 }
    s.runState = .running ∧ s.phase = .boundary ∧ HitsBreakpoint s s.pc ∧ s.cancelAfter = some 1 :=
  ⟨rfl, rfl, ⟨rfl, List.mem_singleton.2 rfl⟩, rfl⟩

/-- GetcReadsOneCharacter and InPromptsReadsAndEchoes: the three cases. -/
theorem witness_read_cases :
    ({ one 0#16 with reads := [.eof] }.cancelAfter ≠ some 0 ∧ { one 0#16 with reads := [.eof] }.reads = [.eof]) ∧
    ((one 0#16).cancelAfter ≠ some 0 ∧ (one 0#16).reads = []) ∧ { one 0#16 with cancelAfter := some 0 }.cancelAfter = some 0 := by
  decide

/-- HeldReadWaitsAndResumes, for both instructions. -/
theorem witness_held_read :
    (one 0#16).runState = .running ∧ (one 0#16).cancelAfter = none ∧ (one 0#16).reads = [] ∧
    (∃ t, exec .getc (one 0#16) = .next t ∧ t.phase = .getcRead) ∧
    ∃ t, exec .in_ (one 0#16) = .next t ∧ t.phase = .inRead :=
  ⟨rfl, rfl, rfl, ⟨_, rfl, by decide⟩, ⟨_, rfl, by decide⟩⟩

/-- "Hi" from 0xFFFF on (V65's text over V68's wrap), and PUTSP's packed "Hi!" (V71) at 0x3020. -/
def stringMem : Memory := [(0x0000, 0x0069#16), (0x3020, 0x6948#16), (0x3021, 0x0021#16), (0xFFFF, 0x0048#16)]

/-- The same in a state, with R0 and the host's cancel. -/
def strings (a : Word) (c : Option Nat) : State := { (boot0 stringMem).setReg 0 a with cancelAfter := c }

/-- A string is a matter of memory and R0 alone. -/
theorem stringAt_of_read (a : Word) (c : Option Nat) (ws : List Word)
    (h : ∀ (i : Nat) (w : Word), ws[i]? = some w → stringMem.read (a + BitVec.ofNat 16 i).toNat = w ∧ w ≠ 0x0000#16)
    (h0 : stringMem.read (a + BitVec.ofNat 16 ws.length).toNat = 0x0000#16) :
    StringAt (strings a c) ((strings a c).reg 0) ws := by
  have e : (strings a c).reg 0 = a := by simp [strings, State.reg, State.setReg]
  rw [e]
  exact ⟨h, h0⟩

theorem witness_string (c : Option Nat) :
    StringAt (strings 0xFFFF#16 c) ((strings 0xFFFF#16 c).reg 0) [0x0048#16, 0x0069#16] := by
  refine stringAt_of_read _ _ _ (fun i w h => ?_) (by decide)
  rcases i with _ | _ | i
  · obtain rfl : 0x0048#16 = w := by simpa using h
    exact ⟨by decide, by decide⟩
  · obtain rfl : 0x0069#16 = w := by simpa using h
    exact ⟨by decide, by decide⟩
  · simp at h

theorem witness_packed_string (c : Option Nat) :
    StringAt (strings 0x3020#16 c) ((strings 0x3020#16 c).reg 0) [0x6948#16, 0x0021#16] := by
  refine stringAt_of_read _ _ _ (fun i w h => ?_) (by decide)
  rcases i with _ | _ | i
  · obtain rfl : 0x6948#16 = w := by simpa using h
    exact ⟨by decide, by decide⟩
  · obtain rfl : 0x0021#16 = w := by simpa using h
    exact ⟨by decide, by decide⟩
  · simp at h

/-- The empty string (V67). -/
theorem witness_empty_string : StringAt (strings 0x4000#16 none) ((strings 0x4000#16 none).reg 0) [] :=
  stringAt_of_read _ _ _ (fun i w h => by simp at h) (by decide)

/-- V68, V71: the bytes. -/
theorem test_string_bytes :
    putsBytes [0x0148#16, 0x0069#16] = [0x48#8, 0x69#8] ∧
    putspBytes [0x6948#16, 0x0021#16, 0x4100#16] = [0x48#8, 0x69#8, 0x21#8, 0x00#8, 0x41#8] := by decide

/-- The cancel conditions of PutsWritesTheString, PutspWritesThePackedString (a cancel that lands just too late) and
CancelLandsBetweenStringBytes (between the first two bytes, and before the last). -/
theorem witness_string_cancel :
    (∀ n, (strings 0xFFFF#16 (some 1)).cancelAfter = some n → [0x0048#16, 0x0069#16].length - 1 ≤ n) ∧
    (∀ n, (strings 0x3020#16 (some 2)).cancelAfter = some n → (putspBytes [0x6948#16, 0x0021#16]).length - 1 ≤ n) ∧
    0 + 1 < [0x0048#16, 0x0069#16].length ∧ 1 + 1 < (putspBytes [0x6948#16, 0x0021#16]).length :=
  ⟨fun n h => by cases h; decide, fun n h => by cases h; decide, by decide, by decide⟩

/-- What a run of listed addresses reads as. -/
theorem read_full (a k : Nat) : ∀ b, b ≤ a → a < b + k →
    Memory.read ((List.range' b k).map fun i => (i, 0x0001#16)) a = 0x0001#16 := by
  induction k with
  | zero => intro b h1 h2; omega
  | succ k ih =>
    intro b h1 h2
    rw [List.range'_succ, List.map_cons, Memory.read]
    by_cases h : b = a
    · rw [if_pos h]
    · rw [if_neg h]
      exact ih (b + 1) (by omega) (by omega)

/-- PutsWithoutZeroWordNeverEnds: a memory with 0x0001 everywhere. -/
theorem witness_no_zero_word :
    let s := boot0 ((List.range' 0 65536).map fun i => (i, 0x0001#16))
    s.runState = .running ∧ s.cancelAfter = none ∧ ∀ a, s.word a ≠ 0x0000#16 := by
  refine ⟨rfl, rfl, fun a h => ?_⟩
  have := read_full a.toNat 65536 0 (Nat.zero_le _) (by have := a.isLt; omega)
  exact absurd (this.symm.trans h) (by decide)

/-- UnknownTrapVectors: both neighbours of the services, under both policies. -/
theorem witness_unknown_vectors :
    (0x1F#8 : Byte).toNat < 0x20 ∧ 0x25 < (0x26#8 : Byte).toNat ∧ (one 0#16).params.unknownTrapPolicy = .noop ∧
    { one 0#16 with params := { params with unknownTrapPolicy := .refuse } }.params.unknownTrapPolicy = .refuse := by decide

/-- OnlyListedRegistersAreWritten and OnlyFlagSettersChangeCond: a call, for a register it does not write. -/
theorem witness_only_registers :
    (∃ t, exec (.jsr 0#11) (one 0#16) = .next t) ∧ (6 : RegNum) ∉ (Instr.jsr 0#11).mayWrite ∧
    (Instr.jsr 0#11).maySetFlags = false := ⟨⟨_, rfl⟩, by decide, rfl⟩

/-- OnlyControlWritesPc and OnlyStoresWriteMemory: a TRAP, and a load at another address than the keyboard's. -/
theorem witness_only_control_and_stores :
    (∃ t, exec .out (one 0#16) = .next t) ∧ Instr.out.mayJump = false ∧ Instr.out.stores = false ∧
    Instr.out.readsMemory = false ∧ (∃ t, exec (.ld 0 0#9) (one 0#16) = .next t) ∧ (Instr.ld 0 0#9).stores = false ∧
    ((0xFE01#16 : Word) ≠ (one 0#16).params.kbsrAddr ∧ (0xFE01#16 : Word) ≠ (one 0#16).params.kbdrAddr) :=
  ⟨⟨_, rfl⟩, rfl, rfl, rfl, ⟨_, rfl⟩, rfl, by decide⟩

/-- RunStateTransitions: each way to leave RUNNING. -/
theorem witness_run_state :
    (∃ t, step (one 0xF025#16) = .next t ∧ t.runState = .halted) ∧
    (∃ t, step (one 0x8000#16) = .next t ∧ t.runState = .fatal) ∧
    ∃ t, step { one 0#16 with cancelAfter := some 0 } = .next t ∧ t.runState = .cancelled :=
  ⟨⟨_, rfl, by decide⟩, ⟨_, rfl, by decide⟩, ⟨_, rfl, by decide⟩⟩

/-- RunningBlockAlwaysSteps: a running state, its exception, and a terminal state. -/
theorem witness_running :
    (one 0#16).runState = .running ∧ { one 0#16 with runState := .cancelled }.runState ≠ .running ∧
    step { one 0xF026#16 with params := { params with unknownTrapPolicy := .refuse } } = .refused (.unknownTrap 0x26#8) :=
  ⟨rfl, by decide, rfl⟩

/-- CancelEndsTheRunAtOnce: at a boundary, in a hold, and in an endless PUTS at a non-zero word. -/
theorem witness_cancel :
    let s := { one 0x1000#16 with cancelAfter := some 0 }
    s.runState = .running ∧ s.cancelAfter = some 0 ∧
    (∀ a, s.phase = .puts a ∨ s.phase = .putsp a → s.word a ≠ 0x0000#16) ∧
    (∀ a, { s with phase := .getcRead }.phase = .puts a ∨ { s with phase := .getcRead }.phase = .putsp a →
      s.word a ≠ 0x0000#16) ∧
    (∀ a, { s with phase := .puts 0x3000#16 }.phase = .puts a ∨ { s with phase := .puts 0x3000#16 }.phase = .putsp a →
      s.word a ≠ 0x0000#16) :=
  ⟨rfl, rfl, fun a h => (by rcases h with h | h <;> cases h), fun a h => (by rcases h with h | h <;> cases h),
    fun a h => by rcases h with h | h <;> cases h; decide⟩

/-- OutputGrowsAndInputIsConsumed, ConfigurationIsNeverWritten: a step there is. -/
theorem witness_step_next : ∃ t, step (one 0xF021#16) = .next t := ⟨_, rfl⟩

/-- StepKeepsTheInvariant: the reset state meets the invariant and takes a step. -/
theorem witness_invariant : State.reset.Inv ∧ ∃ t, step State.reset = .next t :=
  ⟨{ mem_wf := by decide
     kbsr_ne_kbdr := by decide
     fatal_iff := by decide
     fatal_record := fun f h => by cases h
     bp_hold := fun a w h => by cases h
     hold_running := fun h => absurd rfl h }, ⟨_, rfl⟩⟩

/-- ResetValues: an address past the last word of an image. -/
theorem witness_uncovered :
    ∀ img ∈ [({ origin := 0x3000#16, words := [1#16] } : Image)], ∀ k : Nat, k < img.words.length →
      img.origin.toNat + k ≠ (0x3001#16 : Word).toNat := by decide

end Sys2Proof.Tests
end

section
/-! The encoding utilities of R8, read on the bit ranges `v[hi:lo]`. -/

namespace Sys2Proof.Machine

/-- `v[n-1:0]` is the value of the word cut to `n` bits. -/
theorem bitsOf_low_eq_setWidth {n : Nat} (v : Word) (hn : 1 ≤ n) :
    bitsOf v (n - 1) 0 = (v.setWidth n).toNat := by
  simp [bitsOf, Nat.sub_add_cancel hn]

/-- `v[n-1]` is the sign bit of the word cut to `n` bits. -/
theorem bitsOf_signBit_eq_msb {n : Nat} (v : Word) (hn : 1 ≤ n) :
    bitsOf v (n - 1) (n - 1) = (v.setWidth n).msb.toNat := by
  have hmsb : (v.setWidth n).msb = v.toNat.testBit (n - 1) := by
    rw [BitVec.msb_eq_getLsbD_last, BitVec.getLsbD_setWidth, BitVec.getLsbD,
      decide_eq_true (by omega : n - 1 < n), Bool.true_and]
  rw [hmsb, Nat.toNat_testBit, bitsOf, Nat.add_sub_cancel_left, pow_one]

/-- A field at the low end of a word is the word cut to the field's width. -/
theorem lowOf_eq_setWidth (n : Nat) (w : Word) : lowOf n w = w.setWidth n := by
  apply BitVec.eq_of_toNat_eq
  simp [lowOf]

theorem sext_eq_some {n : Nat} (v : Word) (hn : 1 ≤ n) (hn16 : n ≤ 16) :
    sext n v = some ((v.setWidth n).signExtend 16) :=
  if_pos ⟨hn, hn16⟩

theorem zext_toNat {n : Nat} (v : Word) (hn16 : n ≤ 16) : (zext n v).toNat = (v.setWidth n).toNat := by
  rw [zext, BitVec.toNat_setWidth_of_le hn16]

/-- A field of at most 16 bits sign-extends to itself, plus `2^16 - 2^n` when its sign bit is set. -/
theorem toNat_signExtend_word {n : Nat} (f : BitVec n) (hn16 : n ≤ 16) :
    (f.signExtend 16).toNat = f.toNat + if f.msb then 2 ^ 16 - 2 ^ n else 0 := by
  rw [BitVec.toNat_signExtend, BitVec.toNat_setWidth_of_le hn16]

/-- R8's formula for `sext_n`, by the sign bit `v[n-1]`. -/
theorem sext_formula {n : Nat} (v : Word) (hn : 1 ≤ n) (hn16 : n ≤ 16) : ∃ r, sext n v = some r ∧
    (bitsOf v (n - 1) (n - 1) = 0 → r.toNat = bitsOf v (n - 1) 0) ∧
    (bitsOf v (n - 1) (n - 1) = 1 → r.toNat = bitsOf v (n - 1) 0 + (2 ^ 16 - 2 ^ n)) := by
  refine ⟨_, sext_eq_some v hn hn16, ?_⟩
  rw [bitsOf_signBit_eq_msb v hn, bitsOf_low_eq_setWidth v hn, toNat_signExtend_word _ hn16]
  cases (v.setWidth n).msb <;> simp

/-- Settles O6: `sext` and `zext` cut the word to `v[N-1:0]` and extend it by `v[N-1]` or by zeros; each operand field
is such a cut of its word. -/
theorem signAndZeroExtension : Obligations.SignAndZeroExtension := by
  unfold Obligations.SignAndZeroExtension
  refine ⟨fun n v => sext_formula v, fun n v hn hn16 => ?_, fun v => ?_⟩
  · rw [zext_toNat v hn16, bitsOf_low_eq_setWidth v hn]
  · simp [lowOf_eq_setWidth, sext_eq_some, sext5, sext6, sext9, sext11]

end Sys2Proof.Machine
end

section
/-! ADD and AND (40_operate.md R101 to R104): their words, and what an instruction that ends in `setResult` leaves. -/

namespace Sys2Proof.Machine

/-- A mask fixes each bit it has set. -/
theorem getLsbD_of_masked {w mask c : Word} (h : w &&& mask = c) {k : Nat} (hk : mask.getLsbD k = true) :
    w.getLsbD k = c.getLsbD k := by
  rw [← h, BitVec.getLsbD_and, hk, Bool.and_true]

/-- The mask 0xF020 of the ADD and AND rows fixes the opcode field. -/
theorem opcodeField_of_operate_masked {w c : Word} (h : w &&& 0xF020#16 = c) : opcodeField w = opcodeField c := by
  have hw : w &&& 0xF000#16 = c &&& 0xF000#16 := by rw [← h, BitVec.and_assoc]; rfl
  rw [opcodeField_of_masked w _ hw, ← opcodeField_of_masked c _ rfl]

/-- A word with ADD's opcode is the ADD form that bit 5 picks (R73, R77). -/
theorem decode_of_add {w : Word} (h : opcodeField w = Opcode.add.code) : decode w =
    if w.getLsbD 5 then .addImm (regOf w 9) (regOf w 6) (lowOf 5 w)
    else .addReg (regOf w 9) (regOf w 6) (regOf w 0) := by
  simp only [decode, h, Opcode.ofCode_code, regField_eq_regOf, imm5Field_eq_lowOf]

/-- A word with AND's opcode is the AND form that bit 5 picks (R73, R77). -/
theorem decode_of_and {w : Word} (h : opcodeField w = Opcode.and.code) : decode w =
    if w.getLsbD 5 then .andImm (regOf w 9) (regOf w 6) (lowOf 5 w)
    else .andReg (regOf w 9) (regOf w 6) (regOf w 0) := by
  simp only [decode, h, Opcode.ofCode_code, regField_eq_regOf, imm5Field_eq_lowOf]

theorem decode_addReg_row {w : Word} (h : w &&& 0xF020#16 = 0x1000#16) :
    decode w = .addReg (regOf w 9) (regOf w 6) (regOf w 0) := by
  have h5 : w.getLsbD 5 = false := getLsbD_of_masked h rfl
  rw [decode_of_add (opcodeField_of_operate_masked h), h5]
  rfl

theorem decode_addImm_row {w : Word} (h : w &&& 0xF020#16 = 0x1020#16) :
    decode w = .addImm (regOf w 9) (regOf w 6) (lowOf 5 w) := by
  have h5 : w.getLsbD 5 = true := getLsbD_of_masked h rfl
  rw [decode_of_add (opcodeField_of_operate_masked h), if_pos h5]

theorem decode_andReg_row {w : Word} (h : w &&& 0xF020#16 = 0x5000#16) :
    decode w = .andReg (regOf w 9) (regOf w 6) (regOf w 0) := by
  have h5 : w.getLsbD 5 = false := getLsbD_of_masked h rfl
  rw [decode_of_and (opcodeField_of_operate_masked h), h5]
  rfl

theorem decode_andImm_row {w : Word} (h : w &&& 0xF020#16 = 0x5020#16) :
    decode w = .andImm (regOf w 9) (regOf w 6) (lowOf 5 w) := by
  have h5 : w.getLsbD 5 = true := getLsbD_of_masked h rfl
  rw [decode_of_and (opcodeField_of_operate_masked h), if_pos h5]

/-- An instruction that ends in `setResult` completes with its value in DR, COND from it, and R106's frame. -/
theorem completes_of_setResult {i : Instr} {s : State} {dr : RegNum} {v : Word}
    (h : exec i s = .next (s.setResult dr v)) :
    ∃ t, exec i s = .next t ∧ t.reg dr = v ∧ CondMatches t.cond (t.reg dr) ∧ DefinesOnly dr s t := by
  refine ⟨_, h, s.setResult_reg_self dr v, ?_, definesOnly_setResult s dr v⟩
  rw [State.setResult_cond, State.setResult_reg_self]
  exact condOf_matches v

theorem exec_addReg (dr sr1 sr2 : RegNum) (s : State) :
    exec (.addReg dr sr1 sr2) s = .next (s.setResult dr (s.reg sr1 + s.reg sr2)) := rfl

theorem exec_addImm (dr sr1 : RegNum) (imm5 : BitVec 5) (s : State) :
    exec (.addImm dr sr1 imm5) s = .next (s.setResult dr (s.reg sr1 + signedWord imm5)) := rfl

theorem exec_andReg (dr sr1 sr2 : RegNum) (s : State) :
    exec (.andReg dr sr1 sr2) s = .next (s.setResult dr (s.reg sr1 &&& s.reg sr2)) := rfl

theorem exec_andImm (dr sr1 : RegNum) (imm5 : BitVec 5) (s : State) :
    exec (.andImm dr sr1 imm5) s = .next (s.setResult dr (s.reg sr1 &&& signedWord imm5)) := rfl

/-- A signed field keeps its bits, and every bit above them is its sign bit (R8). -/
theorem getLsbD_signedWord {n : Nat} (v : BitVec n) {k : Nat} (hk : k < 16) :
    (signedWord v).getLsbD k = v.getLsbD (min k (n - 1)) := by
  have hext : signedWord v = v.signExtend 16 := rfl
  rw [hext, BitVec.getLsbD_signExtend, decide_eq_true hk, Bool.true_and]
  split
  · next hlow => rw [Nat.min_eq_left (by omega)]
  · next hhigh => rw [Nat.min_eq_right (by omega), BitVec.msb_eq_getLsbD_last]

/-- The AND with a signed field, at every bit; past bit 15 the register's word has none. -/
theorem getLsbD_and_signedWord {n : Nat} (x : Word) (v : BitVec n) (k : Nat) :
    (x &&& signedWord v).getLsbD k = (x.getLsbD k && v.getLsbD (min k (n - 1))) := by
  rw [BitVec.getLsbD_and]
  by_cases hk : k < 16
  · rw [getLsbD_signedWord v hk]
  · rw [BitVec.getLsbD_of_ge x k (by omega), Bool.false_and, Bool.false_and]

/-- Settles O8: bit 5 clear picks the register form, and the sum of two words is their sum modulo 2^16. -/
theorem addRegisterForm : Obligations.AddRegisterForm := by
  unfold Obligations.AddRegisterForm
  refine ⟨fun w => decode_addReg_row, fun dr sr1 sr2 s => ?_⟩
  obtain ⟨t, hexec, hval, hcond, hframe⟩ := completes_of_setResult (exec_addReg dr sr1 sr2 s)
  exact ⟨t, hexec, hval ▸ BitVec.toNat_add .., hcond, hframe⟩

/-- Settles O9: bit 5 set picks the immediate form, and adding the signed immediate is integer addition modulo 2^16. -/
theorem addImmediateForm : Obligations.AddImmediateForm := by
  unfold Obligations.AddImmediateForm
  refine ⟨fun w => decode_addImm_row, fun dr sr1 imm5 s => ?_⟩
  obtain ⟨t, hexec, hval, hcond, hframe⟩ := completes_of_setResult (exec_addImm dr sr1 imm5 s)
  exact ⟨t, hexec, hval ▸ toNat_add_signedWord .., hcond, hframe⟩

/-- Settles O10: bit 5 clear picks the register form, and each bit of the result is the AND of the sources' bits. -/
theorem andRegisterForm : Obligations.AndRegisterForm := by
  unfold Obligations.AndRegisterForm
  refine ⟨fun w => decode_andReg_row, fun dr sr1 sr2 s => ?_⟩
  obtain ⟨t, hexec, hval, hcond, hframe⟩ := completes_of_setResult (exec_andReg dr sr1 sr2 s)
  exact ⟨t, hexec, fun k => hval ▸ BitVec.getLsbD_and, hcond, hframe⟩

/-- Settles O11: bit 5 set picks the immediate form, and each bit of the result is the AND with the bit of the immediate
or, past bit 4, with its sign bit. -/
theorem andImmediateForm : Obligations.AndImmediateForm := by
  unfold Obligations.AndImmediateForm
  refine ⟨fun w => decode_andImm_row, fun dr sr1 imm5 s => ?_⟩
  obtain ⟨t, hexec, hval, hcond, hframe⟩ := completes_of_setResult (exec_andImm dr sr1 imm5 s)
  exact ⟨t, hexec, fun k => hval ▸ getLsbD_and_signedWord .., hcond, hframe⟩

end Sys2Proof.Machine
end

section
/-! JMP and JSR (41_control.md R121, R122): their words, and what a control transfer leaves. -/

namespace Sys2Proof.Machine

/-- Any mask that covers bits [15:12] fixes the opcode field. -/
theorem opcodeField_of_covering_mask {w mask c : Word} (hmask : mask &&& 0xF000#16 = 0xF000#16)
    (h : w &&& mask = c) : opcodeField w = opcodeField c := by
  have hw : w &&& 0xF000#16 = c &&& 0xF000#16 := by rw [← h, BitVec.and_assoc, hmask]
  rw [opcodeField_of_masked w _ hw, ← opcodeField_of_masked c _ rfl]

/-- A word with JMP's opcode is JMP, whatever its other bits are (R73, R77). -/
theorem decode_of_jmp {w : Word} (h : opcodeField w = Opcode.jmp.code) : decode w = .jmp (regOf w 6) := by
  simp only [decode, h, Opcode.ofCode_code, regField_eq_regOf]

/-- A word with JSR's opcode is the call that bit 11 picks (R73, R77). -/
theorem decode_of_jsr {w : Word} (h : opcodeField w = Opcode.jsr.code) : decode w =
    if w.getLsbD 11 then .jsr (lowOf 11 w) else .jsrr (regOf w 6) := by
  simp only [decode, h, Opcode.ofCode_code, regField_eq_regOf, pcOffset11Field_eq_lowOf]

theorem decode_jmp_row {w : Word} (h : w &&& 0xF000#16 = 0xC000#16) : decode w = .jmp (regOf w 6) :=
  decode_of_jmp (opcodeField_of_masked w _ h)

theorem decode_jsr_row {w : Word} (h : w &&& 0xF800#16 = 0x4800#16) : decode w = .jsr (lowOf 11 w) := by
  have h11 : w.getLsbD 11 = true := getLsbD_of_masked h rfl
  rw [decode_of_jsr (opcodeField_of_covering_mask rfl h), if_pos h11]

/-- Updates of the registers and PC alone have the frame of a control transfer. -/
theorem transfersOnly_of_eq {s t : State} (h : t = { s with regs := t.regs, pc := t.pc }) : TransfersOnly s t := by
  rw [h]
  exact ⟨rfl, fun _ => rfl, ⟨⟨rfl, rfl, rfl⟩, rfl, rfl, rfl, rfl, rfl⟩, ⟨rfl, rfl, rfl, rfl, rfl⟩⟩

theorem exec_jmp (base : RegNum) (s : State) : exec (.jmp base) s = .next (s.setPc (s.reg base)) := rfl

theorem exec_jsr (off11 : BitVec 11) (s : State) :
    exec (.jsr off11) s = .next (s.link.setPc (s.pc + signedWord off11)) := rfl

/-- Settles O16: the opcode alone picks JMP, which writes PC from the base register and nothing else. -/
theorem jumpThroughRegister : Obligations.JumpThroughRegister := by
  unfold Obligations.JumpThroughRegister
  refine ⟨fun w => decode_jmp_row, fun base s => ⟨_, exec_jmp base s, ?target, ?regs, transfersOnly_of_eq rfl⟩⟩
  case target => exact s.setPc_pc (s.reg base)
  case regs => exact fun r => s.setPc_reg (s.reg base) r

/-- Settles O17: bit 11 set picks JSR; the link goes to R7 alone, and adding the signed offset to PC is integer addition
modulo 2^16. -/
theorem callPcRelative : Obligations.CallPcRelative := by
  unfold Obligations.CallPcRelative
  refine ⟨fun w => decode_jsr_row,
    fun off11 s => ⟨_, exec_jsr off11 s, ?link, ?target, ?regs, transfersOnly_of_eq rfl⟩⟩
  case link => rw [State.setPc_reg, State.link_reg_seven]
  case target => rw [State.setPc_pc, toNat_add_signedWord]
  case regs => exact fun r hr => by rw [State.setPc_reg, s.link_reg_ne r hr]

end Sys2Proof.Machine
end

section
/-! The loads and stores (42_loadstore.md R140 to R146): their words, what one MemRead and one MemWrite leave, and the
instructions as a read or a write at an address. -/

namespace Sys2Proof.Machine

/-! ## Words -/

/-- A row of mask 0xF000 selects its operation by the opcode alone (R71, R72). -/
theorem ofCode_opcodeField_of_row {w c : Word} {op : Opcode} (h : w &&& 0xF000#16 = c)
    (hc : opcodeField c = op.code) : Opcode.ofCode (opcodeField w) = op := by
  rw [opcodeField_of_masked w c h, hc, Opcode.ofCode_code]

theorem decode_ld_row {w : Word} (h : w &&& 0xF000#16 = 0x2000#16) : decode w = .ld (regOf w 9) (lowOf 9 w) := by
  simp only [decode, ofCode_opcodeField_of_row (op := .ld) h rfl, regField_eq_regOf, pcOffset9Field_eq_lowOf]

theorem decode_ldi_row {w : Word} (h : w &&& 0xF000#16 = 0xA000#16) : decode w = .ldi (regOf w 9) (lowOf 9 w) := by
  simp only [decode, ofCode_opcodeField_of_row (op := .ldi) h rfl, regField_eq_regOf, pcOffset9Field_eq_lowOf]

theorem decode_ldr_row {w : Word} (h : w &&& 0xF000#16 = 0x6000#16) :
    decode w = .ldr (regOf w 9) (regOf w 6) (lowOf 6 w) := by
  simp only [decode, ofCode_opcodeField_of_row (op := .ldr) h rfl, regField_eq_regOf, offset6Field_eq_lowOf]

theorem decode_lea_row {w : Word} (h : w &&& 0xF000#16 = 0xE000#16) : decode w = .lea (regOf w 9) (lowOf 9 w) := by
  simp only [decode, ofCode_opcodeField_of_row (op := .lea) h rfl, regField_eq_regOf, pcOffset9Field_eq_lowOf]

theorem decode_st_row {w : Word} (h : w &&& 0xF000#16 = 0x3000#16) : decode w = .st (regOf w 9) (lowOf 9 w) := by
  simp only [decode, ofCode_opcodeField_of_row (op := .st) h rfl, regField_eq_regOf, pcOffset9Field_eq_lowOf]

theorem decode_sti_row {w : Word} (h : w &&& 0xF000#16 = 0xB000#16) : decode w = .sti (regOf w 9) (lowOf 9 w) := by
  simp only [decode, ofCode_opcodeField_of_row (op := .sti) h rfl, regField_eq_regOf, pcOffset9Field_eq_lowOf]

theorem decode_str_row {w : Word} (h : w &&& 0xF000#16 = 0x7000#16) :
    decode w = .str (regOf w 9) (regOf w 6) (lowOf 6 w) := by
  simp only [decode, ofCode_opcodeField_of_row (op := .str) h rfl, regField_eq_regOf, offset6Field_eq_lowOf]

/-! ## One read, one write -/

/-- A keyboard poll takes the host's answer, writes it to the keyboard words, and touches nothing else (R44). -/
theorem polled_keyboardPoll (s : State) : Polled s (keyboardPoll s) (inPoll s).1 (inPoll s).2 where
  answer := inPoll_answer s
  found_status := fun c hc hne => by simp [keyboardPoll_word, hc, hne]
  found_data := fun c hc => by simp [keyboardPoll_word, hc, zext8_toNat]
  empty_status := fun hc => by simp [keyboardPoll_word, hc]
  empty_data := fun hc hne => by simp [keyboardPoll_word, hc, hne.symm]
  elsewhere := fun a hsr hdr => by rw [keyboardPoll_word]; split <;> simp [hsr, hdr]
  rest := keyboardPoll_eq s

/-- `memRead` follows R43: the poll at KBSR_ADDR and nowhere else, then the word. -/
theorem readAt_memRead (a : Word) (s : State) : ReadAt a s (memRead a s).2 (memRead a s).1 where
  plain := pollIfStatus_of_ne a s
  status := fun ha => by
    rw [memRead_snd, pollIfStatus_of_eq a s ha]
    exact ⟨_, _, polled_keyboardPoll s⟩
  value := rfl

theorem memRead_snd_reg (a : Word) (s : State) (r : RegNum) : (memRead a s).2.reg r = s.reg r :=
  pollIfStatus_reg a s r

/-- `memWrite` follows R46: the word at one address, and nothing else. -/
theorem stores_memWrite (s : State) (a v : Word) : Stores a v s (s.memWrite a v) where
  stored := s.memWrite_word_self a v
  elsewhere := fun b => s.memWrite_word_ne a b v
  regs := fun _ => rfl
  pc := rfl
  cond := rfl
  run := ⟨⟨rfl, rfl, rfl⟩, rfl, rfl, rfl, rfl, rfl⟩
  streams := ⟨rfl, rfl, rfl, rfl, rfl⟩

/-! ## The instructions as a read or a write at an address -/

/-- One load: the word MemRead gives at `a` into DR and COND, after the read's poll (R140 to R142). -/
def loadFrom (a : Word) (dr : RegNum) (s : State) : State := (memRead a s).2.setResult dr (memRead a s).1

section Exec
variable (r base : RegNum) (off6 : BitVec 6) (off9 : BitVec 9) (s : State)

theorem exec_ld : exec (.ld r off9) s = .next (loadFrom (s.pc + signedWord off9) r s) := rfl

/-- LDI is the pointer's read, then LD's read at the pointer (R141). -/
theorem exec_ldi : exec (.ldi r off9) s =
    .next (loadFrom (memRead (s.pc + signedWord off9) s).1 r (memRead (s.pc + signedWord off9) s).2) := rfl

theorem exec_ldr : exec (.ldr r base off6) s = .next (loadFrom (s.reg base + signedWord off6) r s) := rfl

theorem exec_lea : exec (.lea r off9) s = .next (s.setResult r (s.pc + signedWord off9)) := rfl

theorem exec_st : exec (.st r off9) s = .next (s.memWrite (s.pc + signedWord off9) (s.reg r)) := rfl

/-- The pointer's read, which may poll, leaves the register that STI stores. -/
theorem exec_sti : exec (.sti r off9) s = .next ((memRead (s.pc + signedWord off9) s).2.memWrite
    (memRead (s.pc + signedWord off9) s).1 (s.reg r)) := by
  rw [← memRead_snd_reg (s.pc + signedWord off9) s r]
  rfl

theorem exec_str : exec (.str r base off6) s =
    .next (s.memWrite (s.reg base + signedWord off6) (s.reg r)) := rfl

end Exec

/-- A load is a MemRead that leaves its word in DR and COND, with R147's frame after the read's poll. -/
theorem loadFrom_reads (a : Word) (dr : RegNum) (s : State) : ∃ u v, ReadAt a s u v ∧
    (loadFrom a dr s).reg dr = v ∧ CondMatches (loadFrom a dr s).cond v ∧ DefinesOnly dr u (loadFrom a dr s) := by
  refine ⟨_, _, readAt_memRead a s, State.setResult_reg_self .., ?cond, definesOnly_setResult ..⟩
  case cond =>
    rw [loadFrom, State.setResult_cond]
    exact condOf_matches _

/-! ## The obligations -/

/-- Settles O24: LD is one read at the PC-relative address. -/
theorem loadPcRelative : Obligations.LoadPcRelative := by
  unfold Obligations.LoadPcRelative
  refine ⟨fun w => decode_ld_row, fun dr off9 s => ?_⟩
  obtain ⟨u, v, hread, hdefines⟩ := loadFrom_reads (s.pc + signedWord off9) dr s
  exact ⟨u, v, _, hread, exec_ld dr off9 s, hdefines⟩

/-- Settles O25: LDI is the pointer's read, and then one load from the state that read leaves. -/
theorem loadIndirect : Obligations.LoadIndirect := by
  unfold Obligations.LoadIndirect
  refine ⟨fun w => decode_ldi_row, fun dr off9 s => ?_⟩
  have hpointer := readAt_memRead (s.pc + signedWord off9) s
  obtain ⟨u, v, hread, hdefines⟩ := loadFrom_reads (memRead (s.pc + signedWord off9) s).1 dr
    (memRead (s.pc + signedWord off9) s).2
  exact ⟨_, _, u, v, _, hpointer, hread, exec_ldi dr off9 s, hdefines⟩

/-- Settles O26: LDR is one read at base + offset, the base taken from the state before DR is written. -/
theorem loadBaseOffset : Obligations.LoadBaseOffset := by
  unfold Obligations.LoadBaseOffset
  refine ⟨fun w => decode_ldr_row, fun dr base off6 s => ?_⟩
  obtain ⟨u, v, hread, hdefines⟩ := loadFrom_reads (s.reg base + signedWord off6) dr s
  exact ⟨u, v, _, hread, exec_ldr dr base off6 s, hdefines⟩

/-- Settles O27: LEA defines DR by the address, and adding the signed offset to PC is integer addition modulo 2^16. -/
theorem loadEffectiveAddress : Obligations.LoadEffectiveAddress := by
  unfold Obligations.LoadEffectiveAddress
  refine ⟨fun w => decode_lea_row, fun dr off9 s => ?_⟩
  obtain ⟨t, hexec, hval, hcond, hframe⟩ := completes_of_setResult (exec_lea dr off9 s)
  exact ⟨t, hexec, hval ▸ toNat_add_signedWord .., hcond, hframe⟩

/-- Settles O28: ST is one write at the PC-relative address. -/
theorem storePcRelative : Obligations.StorePcRelative := by
  unfold Obligations.StorePcRelative
  exact ⟨fun w => decode_st_row, fun sr off9 s => ⟨_, exec_st sr off9 s, stores_memWrite ..⟩⟩

/-- Settles O29: STI is the pointer's read, and then one write at the pointer in the state that read leaves. -/
theorem storeIndirect : Obligations.StoreIndirect := by
  unfold Obligations.StoreIndirect
  refine ⟨fun w => decode_sti_row, fun sr off9 s => ?_⟩
  exact ⟨_, _, _, readAt_memRead (s.pc + signedWord off9) s, exec_sti sr off9 s, stores_memWrite ..⟩

/-- Settles O30: STR is one write at base + offset. -/
theorem storeBaseOffset : Obligations.StoreBaseOffset := by
  unfold Obligations.StoreBaseOffset
  exact ⟨fun w => decode_str_row, fun sr base off6 s => ⟨_, exec_str sr base off6 s, stores_memWrite ..⟩⟩

end Sys2Proof.Machine
end

section
/-! OUT and HALT (43_trap.md R172, R176): the frame of a service that only writes output after the link. -/

namespace Sys2Proof.Machine

/-- After the link, a service may set RunState, the phase, the output and the cancel count within the output frame
(R170, R179). -/
theorem outputFrame_enterTrap_with (s : State) (run : RunState) (phase : Phase) (out : List Byte)
    (cancel : Option Nat) : OutputFrame s
      { enterTrap s with runState := run, phase := phase, output := out, cancelAfter := cancel } where
  trap := trapFrame_of_eq _ _ (enterTrap_reg_seven s) (fun r _ h7 => enterTrap_reg_ne s r h7) rfl
  r0 := enterTrap_reg_zero s
  cond := rfl
  reads := rfl

/-- OUT is the link, then one byte of output: the low byte of R0, which the link leaves alone (R172). -/
theorem exec_out (s : State) : exec .out s = .next (outWrite (lowByte (s.reg 0)) (enterTrap s)) := by
  rw [← enterTrap_reg_zero s]
  rfl

/-- HALT is the link, the halt notice, and RunState HALTED (R176). -/
theorem exec_halt (s : State) : exec .halt s =
    .next { outBytes s.params.haltNotice (enterTrap s) with runState := .halted } := rfl

/-! ## The obligations -/

/-- Settles O39: the one byte OUT appends is bits [7:0] of R0, and the rest is the output frame. -/
theorem outWritesTheLowByte : Obligations.OutWritesTheLowByte := by
  unfold Obligations.OutWritesTheLowByte
  refine fun s => ⟨_, exec_out s, outputFrame_enterTrap_with .., ?output, rfl, rfl, rfl⟩
  case output => rw [outWrite_output, enterTrap_output, lowByte_eq]

/-- Settles O44: HALT appends the notice of the parameters and stops the run, and the rest is the output frame. -/
theorem haltStopsCleanly : Obligations.HaltStopsCleanly := by
  unfold Obligations.HaltStopsCleanly
  exact fun s => ⟨_, exec_halt s, outputFrame_enterTrap_with .., outBytes_output _ _, rfl, rfl, rfl⟩

end Sys2Proof.Machine
end

section
/-! Decoding an encoding (30_encoding.md R72 to R78): the bits that pick an instruction's form, read from its own
word, and its operands read back. -/

namespace Sys2Proof.Machine

section Forms
variable (op : Opcode) (a b : BitVec 3)

/-! Bit 5 and the low operand of the two forms of ADD and AND. -/

theorem bit5_registerForm (r : RegNum) :
    (format336 op a b (0#1 ++ 0#2 ++ regBits r)).getLsbD 5 = false := by
  rw [getLsbD_format336_low op a b _ 5 (by decide), BitVec.getLsbD_append, if_neg (by decide)]
  rfl

theorem sr2_registerForm (r : RegNum) : regField (format336 op a b (0#1 ++ 0#2 ++ regBits r)) 0 = r := by
  rw [regField_format336_zero, extract_append_low _ _ 0 3 (by decide), BitVec.extractLsb'_eq_self, regBits_toFin]

theorem bit5_immediateForm (imm5 : BitVec 5) : (format336 op a b (1#1 ++ imm5)).getLsbD 5 = true := by
  rw [getLsbD_format336_low op a b _ 5 (by decide), BitVec.getLsbD_append, if_neg (by decide)]
  rfl

theorem imm5_immediateForm (imm5 : BitVec 5) : imm5Field (format336 op a b (1#1 ++ imm5)) = imm5 := by
  rw [imm5Field_format336, extract_append_low _ _ 0 5 (by decide), BitVec.extractLsb'_eq_self]

/-! Bit 11 and the offset of the two calls. -/

theorem bit11_jsr (off11 : BitVec 11) : (format12 op (1#1 ++ off11)).getLsbD 11 = true := by
  rw [getLsbD_format12 op _ 11 (by decide), BitVec.getLsbD_append, if_neg (by decide)]
  rfl

theorem off11_jsr (off11 : BitVec 11) : pcOffset11Field (format12 op (1#1 ++ off11)) = off11 := by
  rw [pcOffset11Field_format12, extract_append_low _ _ 0 11 (by decide), BitVec.extractLsb'_eq_self]

theorem bit11_jsrr (c6 : BitVec 6) : (format336 op (0#1 ++ 0#2) b c6).getLsbD 11 = false :=
  getLsbD_format336_high op _ b c6 2 (by decide)

/-! BR's three cond bits. -/

theorem condBits_br (n z p : Bool) (off9 : BitVec 9) :
    let w := format39 op (BitVec.ofBool n ++ BitVec.ofBool z ++ BitVec.ofBool p) off9
    w.getLsbD 11 = n ∧ w.getLsbD 10 = z ∧ w.getLsbD 9 = p := by
  have bits : ∀ n z p : Bool, (BitVec.ofBool n ++ BitVec.ofBool z ++ BitVec.ofBool p).getLsbD 2 = n ∧
      (BitVec.ofBool n ++ BitVec.ofBool z ++ BitVec.ofBool p).getLsbD 1 = z ∧
      (BitVec.ofBool n ++ BitVec.ofBool z ++ BitVec.ofBool p).getLsbD 0 = p := by decide
  obtain ⟨hn, hz, hp⟩ := bits n z p
  exact ⟨(getLsbD_format39_high op _ off9 2 (by decide)).trans hn,
    (getLsbD_format39_high op _ off9 1 (by decide)).trans hz,
    (getLsbD_format39_high op _ off9 0 (by decide)).trans hp⟩

end Forms

theorem opcodeField_trapWord (v : Byte) : opcodeField (trapWord v) = Opcode.trap.code :=
  opcodeField_format12 .trap _

/-- A TRAP's own word decodes by its vector alone (R78). -/
theorem decode_trapWord (v : Byte) : decode (trapWord v) = decodeTrap v := by
  simp only [decode, opcodeField_trapWord, Opcode.ofCode_code, trapVectorField_trapWord]

/-- Settles O1: each format gives back its opcode and its operands, the form bits pick the form they were written for,
and a vector that selects no service stays with TRAP. -/
theorem decodeEncodeRoundTrip : Obligations.DecodeEncodeRoundTrip := by
  unfold Obligations.DecodeEncodeRoundTrip
  intro i hwf
  cases i with
  | addReg dr sr1 sr2 | andReg dr sr1 sr2 =>
    simp only [encode, decode, opcodeField_format336, Opcode.ofCode_code, bit5_registerForm, Bool.false_eq_true,
      if_false, regField_format336_nine, regField_format336_six, regBits_toFin, sr2_registerForm]
  | addImm dr sr1 imm5 | andImm dr sr1 imm5 =>
    simp only [encode, decode, opcodeField_format336, Opcode.ofCode_code, bit5_immediateForm, if_true,
      regField_format336_nine, regField_format336_six, regBits_toFin, imm5_immediateForm]
  | not dr sr | jmp base => simp [encode, decode]
  | br n z p off9 =>
    obtain ⟨hn, hz, hp⟩ := condBits_br .br n z p off9
    simp only [encode, decode, opcodeField_format39, Opcode.ofCode_code, hn, hz, hp, pcOffset9Field_format39]
  | jsr off11 =>
    simp only [encode, decode, opcodeField_format12, Opcode.ofCode_code, bit11_jsr, if_true, off11_jsr]
  | jsrr base =>
    simp only [encode, decode, opcodeField_format336, Opcode.ofCode_code, bit11_jsrr, Bool.false_eq_true, if_false,
      regField_format336_six, regBits_toFin]
  | ld r off9 | ldi r off9 | lea r off9 | st r off9 | sti r off9 => simp [encode, decode]
  | ldr r base off6 | str r base off6 => simp [encode, decode]
  | rti low | res low => simp [encode, decode, rtiWord, resWord]
  | trap v =>
    have hv : isServiceVector v = false := by simpa [Instr.wellFormed] using hwf
    exact (decode_trapWord v).trans (decodeTrap_of_not_service v hv)
  | getc | out | puts | in_ | putsp | halt => exact decode_trapWord _

end Sys2Proof.Machine
end

section
/-! Every word is one row of the opcode table (30_encoding.md R72, R76, R77): the rows not read above, and the row of a
word by its opcode and its form bits. -/

namespace Sys2Proof.Machine

/-! ## The remaining rows -/

theorem decode_not_row {w : Word} (h : w &&& 0xF000#16 = 0x9000#16) : decode w = .not (regOf w 9) (regOf w 6) := by
  simp only [decode, ofCode_opcodeField_of_row (op := .not) h rfl, regField_eq_regOf]

theorem decode_br_row {w : Word} (h : w &&& 0xF000#16 = 0x0000#16) : decode w =
    .br (bitsOf w 11 11 == 1) (bitsOf w 10 10 == 1) (bitsOf w 9 9 == 1) (lowOf 9 w) := by
  simp only [decode, ofCode_opcodeField_of_row (op := .br) h rfl, getLsbD_eq_bitsOf, pcOffset9Field_eq_lowOf]

theorem decode_jsrr_row {w : Word} (h : w &&& 0xF800#16 = 0x4000#16) : decode w = .jsrr (regOf w 6) := by
  have h11 : w.getLsbD 11 = false := getLsbD_of_masked h rfl
  rw [decode_of_jsr (opcodeField_of_covering_mask rfl h), h11]
  rfl

theorem decode_rti_row {w : Word} (h : w &&& 0xF000#16 = 0x8000#16) : decode w = .rti (lowOf 12 w) := by
  simp only [decode, ofCode_opcodeField_of_row (op := .rti) h rfl, low12_eq_lowOf]

theorem decode_res_row {w : Word} (h : w &&& 0xF000#16 = 0xD000#16) : decode w = .res (lowOf 12 w) := by
  simp only [decode, ofCode_opcodeField_of_row (op := .res) h rfl, low12_eq_lowOf]

/-- Every word of TRAP's row decodes by its vector (R78). -/
theorem decode_trap_row {w : Word} (h : w &&& 0xF000#16 = 0xF000#16) : decode w = decodeTrap (trapVectorField w) := by
  simp only [decode, ofCode_opcodeField_of_row (op := .trap) h rfl]

/-- A service's row fixes the vector too. -/
theorem decode_service_row {w c : Word} (h : w &&& 0xF0FF#16 = c) (hc : opcodeField c = Opcode.trap.code) :
    decode w = decodeTrap (trapVectorField c) := by
  have hop : opcodeField w = Opcode.trap.code := (opcodeField_of_covering_mask rfl h).trans hc
  have hmask : trapVectorField 0xF0FF#16 = BitVec.allOnes 8 := rfl
  have hv : trapVectorField w = trapVectorField c := by
    rw [← h, trapVectorField, trapVectorField, BitVec.extractLsb'_and]
    exact (congrArg _ hmask).trans BitVec.and_allOnes |>.symm
  simp only [decode, hop, Opcode.ofCode_code, hv]

/-! ## A word as its fields -/

theorem append_fields336 (w : Word) :
    opcodeField w ++ w.extractLsb' 9 3 ++ w.extractLsb' 6 3 ++ w.extractLsb' 0 6 = w := by
  rw [opcodeField, BitVec.extractLsb'_append_extractLsb'_eq_extractLsb' (by decide : 12 = 9 + 3),
    BitVec.extractLsb'_append_extractLsb'_eq_extractLsb' (by decide : 9 = 6 + 3),
    BitVec.extractLsb'_append_extractLsb'_eq_extractLsb' (by decide : 6 = 0 + 6)]
  exact BitVec.extractLsb'_eq_self

theorem append_fields39 (w : Word) : opcodeField w ++ w.extractLsb' 9 3 ++ w.extractLsb' 0 9 = w := by
  rw [opcodeField, BitVec.extractLsb'_append_extractLsb'_eq_extractLsb' (by decide : 12 = 9 + 3),
    BitVec.extractLsb'_append_extractLsb'_eq_extractLsb' (by decide : 9 = 0 + 9)]
  exact BitVec.extractLsb'_eq_self

/-- A word cut in two at bit `m`. -/
theorem append_halves {n m : Nat} (x : BitVec (n + m)) : x.extractLsb' m n ++ x.extractLsb' 0 m = x :=
  (BitVec.extractLsb'_append_extractLsb'_eq_extractLsb' (Nat.zero_add m).symm).trans BitVec.extractLsb'_eq_self

theorem append_fields12 (w : Word) : opcodeField w ++ w.extractLsb' 0 12 = w := append_halves (n := 4) (m := 12) w

/-! ## From the opcode to the row -/

/-- What the mask 0xF000 keeps is the opcode field. -/
theorem and_opcodeMask (w : Word) : w &&& 0xF000#16 = opcodeField w ++ 0#12 := by
  have hmask : 0xF000#16 = BitVec.allOnes 4 ++ 0#12 := rfl
  calc w &&& 0xF000#16
    _ = (opcodeField w ++ w.extractLsb' 0 12) &&& (BitVec.allOnes 4 ++ 0#12) := by rw [append_fields12, hmask]
    _ = opcodeField w ++ 0#12 := by rw [BitVec.and_append, BitVec.and_allOnes, BitVec.and_zero]

/-- A row that reads one form bit beside the opcode. -/
theorem and_opcodeMask_or_bit (w : Word) (k : Nat) : w &&& (0xF000#16 ||| BitVec.twoPow 16 k) =
    (opcodeField w ++ 0#12) ||| if w.getLsbD k then BitVec.twoPow 16 k else 0#16 := by
  rw [BitVec.and_or_distrib_left, and_opcodeMask, BitVec.and_twoPow]

/-- What the mask of the service rows keeps is the opcode and the vector. -/
theorem and_serviceMask (w : Word) : w &&& 0xF0FF#16 = (opcodeField w ++ 0#12) ||| (0#8 ++ trapVectorField w) := by
  have hw : w.extractLsb' 8 8 ++ trapVectorField w = w := append_halves (n := 8) (m := 8) w
  have hmask : 0x00FF#16 = 0#8 ++ BitVec.allOnes 8 := rfl
  have hlow : w &&& 0x00FF#16 = 0#8 ++ trapVectorField w := by
    calc w &&& 0x00FF#16
      _ = (w.extractLsb' 8 8 ++ trapVectorField w) &&& (0#8 ++ BitVec.allOnes 8) := by rw [hw, hmask]
      _ = 0#8 ++ trapVectorField w := by rw [BitVec.and_append, BitVec.and_allOnes, BitVec.and_zero]
  have hsplit : 0xF0FF#16 = 0xF000#16 ||| 0x00FF#16 := rfl
  rw [hsplit, BitVec.and_or_distrib_left, and_opcodeMask, hlow]

/-- Decoding gives an instruction of the decoder's, and the word meets its row. -/
def MeetsRow (w : Word) (i : Instr) : Prop := i.wellFormed = true ∧ w &&& i.row.2 = i.row.1

/-- A vector's instruction is well-formed, and its row is TRAP's own or the service's, with the vector in the match. -/
theorem decodeTrap_row : ∀ v : Byte, (decodeTrap v).wellFormed = true ∧
    ((decodeTrap v).row = (0xF000#16, 0xF000#16) ∨ (decodeTrap v).row = (0xF000#16 ||| (0#8 ++ v), 0xF0FF#16)) := by
  decide

theorem decodeTrap_meetsRow {w : Word} (h : opcodeField w = Opcode.trap.code) :
    MeetsRow w (decodeTrap (trapVectorField w)) := by
  obtain ⟨hwf, hrow | hrow⟩ := decodeTrap_row (trapVectorField w)
  · refine ⟨hwf, ?_⟩
    rw [hrow, and_opcodeMask, h]
    rfl
  · refine ⟨hwf, ?_⟩
    rw [hrow, and_serviceMask, h]
    rfl

theorem decode_meetsRow (w : Word) : MeetsRow w (decode w) := by
  obtain ⟨op, hop⟩ : ∃ op : Opcode, opcodeField w = op.code := ⟨_, (Opcode.code_ofCode _).symm⟩
  have hrow := and_opcodeMask w
  have hbit5 := and_opcodeMask_or_bit w 5
  have hbit11 := and_opcodeMask_or_bit w 11
  rw [hop] at hrow hbit5 hbit11
  cases op with
  | add | and =>
    simp only [decode, hop, Opcode.ofCode_code]
    split_ifs with h5
    · exact ⟨rfl, hbit5.trans (by rw [if_pos h5]; rfl)⟩
    · exact ⟨rfl, hbit5.trans (by rw [if_neg h5]; rfl)⟩
  | jsr =>
    simp only [decode, hop, Opcode.ofCode_code]
    split_ifs with h11
    · exact ⟨rfl, hbit11.trans (by rw [if_pos h11]; rfl)⟩
    · exact ⟨rfl, hbit11.trans (by rw [if_neg h11]; rfl)⟩
  | trap =>
    simp only [decode, hop, Opcode.ofCode_code]
    exact decodeTrap_meetsRow hop
  | _ =>
    simp only [decode, hop, Opcode.ofCode_code]
    exact ⟨rfl, hrow⟩

theorem decode_wellFormed (w : Word) : (decode w).wellFormed = true := (decode_meetsRow w).1

/-- Settles O2: by the opcode, the form bit or the vector a word meets the row of its instruction; and the masks of two
rows fix enough bits to tell them apart, TRAP's row aside. -/
theorem everyWordIsOneRow : Obligations.EveryWordIsOneRow := by
  unfold Obligations.EveryWordIsOneRow
  refine ⟨decode_meetsRow, fun w i h hi => ?_⟩
  cases i with
  | trap v => exact absurd rfl (hi v)
  | addReg => rw [decode_addReg_row h]; rfl
  | addImm => rw [decode_addImm_row h]; rfl
  | andReg => rw [decode_andReg_row h]; rfl
  | andImm => rw [decode_andImm_row h]; rfl
  | not => rw [decode_not_row h]; rfl
  | br => rw [decode_br_row h]; rfl
  | jmp => rw [decode_jmp_row h]; rfl
  | jsr => rw [decode_jsr_row h]; rfl
  | jsrr => rw [decode_jsrr_row h]; rfl
  | ld => rw [decode_ld_row h]; rfl
  | ldi => rw [decode_ldi_row h]; rfl
  | ldr => rw [decode_ldr_row h]; rfl
  | lea => rw [decode_lea_row h]; rfl
  | st => rw [decode_st_row h]; rfl
  | sti => rw [decode_sti_row h]; rfl
  | str => rw [decode_str_row h]; rfl
  | rti => rw [decode_rti_row h]; rfl
  | res => rw [decode_res_row h]; rfl
  | getc | out | puts | in_ | putsp | halt => rw [decode_service_row h rfl]; rfl

end Sys2Proof.Machine
end

section
/-! Named and ignored bits (30_encoding.md R75): what decoding keeps of a word, and what it does not read. -/

namespace Sys2Proof.Machine

/-! ## A word as its format -/

theorem eq_format336 {w : Word} {op : Opcode} (h : opcodeField w = op.code) : ∃ a b c, w = format336 op a b c :=
  ⟨_, _, _, by rw [format336, ← h, append_fields336]⟩

theorem eq_format39 {w : Word} {op : Opcode} (h : opcodeField w = op.code) : ∃ a c, w = format39 op a c :=
  ⟨_, _, by rw [format39, ← h, append_fields39]⟩

theorem eq_format12 {w : Word} {op : Opcode} (h : opcodeField w = op.code) : ∃ c, w = format12 op c :=
  ⟨_, by rw [format12, ← h, append_fields12]⟩

/-! ## What a mask keeps of a format -/

theorem format336_and (op : Opcode) (a b : BitVec 3) (c : BitVec 6) (m : Word) : format336 op a b c &&& m =
    (op.code &&& opcodeField m) ++ (a &&& m.extractLsb' 9 3) ++ (b &&& m.extractLsb' 6 3) ++
      (c &&& m.extractLsb' 0 6) := by
  rw [← BitVec.and_append, ← BitVec.and_append, ← BitVec.and_append, append_fields336, format336]

/-- Where a mask names no bit of a field, any two values agree. -/
theorem and_congr_of_unnamed {n : Nat} {x y m : BitVec n} (h : m = 0#n) : x &&& m = y &&& m := by
  rw [h, BitVec.and_zero, BitVec.and_zero]

/-- Formats that agree on the named bits of [11:9] and of [5:0]. -/
theorem format336_and_congr (op : Opcode) (b : BitVec 3) {a a' : BitVec 3} {c c' : BitVec 6} {m : Word}
    (ha : a &&& m.extractLsb' 9 3 = a' &&& m.extractLsb' 9 3)
    (hc : c &&& m.extractLsb' 0 6 = c' &&& m.extractLsb' 0 6) :
    format336 op a b c &&& m = format336 op a' b c' &&& m := by
  rw [format336_and, format336_and, ha, hc]

/-- TRAP's word for the vector of a TRAP word, outside bits [11:8]. -/
theorem trapWord_and_vector (c : BitVec 12) :
    trapWord (c.extractLsb' 0 8) &&& ~~~0x0F00#16 = format12 .trap c &&& ~~~0x0F00#16 := by
  have hc : c.extractLsb' 8 4 ++ c.extractLsb' 0 8 = c :=
    append_halves (n := 4) (m := 8) c
  have hm : ~~~0x0F00#16 = BitVec.allOnes 4 ++ (0#4 ++ BitVec.allOnes 8) := rfl
  have drop : ∀ high : BitVec 4, format12 .trap (high ++ c.extractLsb' 0 8) &&& ~~~0x0F00#16 =
      Opcode.trap.code ++ (0#4 ++ c.extractLsb' 0 8) := by
    intro high
    rw [hm, format12, BitVec.and_append, BitVec.and_append, BitVec.and_allOnes, BitVec.and_allOnes, BitVec.and_zero]
  rw [trapWord, drop, ← drop (c.extractLsb' 8 4), hc]

theorem encode_decodeTrap : ∀ v : Byte,
    encode (decodeTrap v) = trapWord v ∧ (decodeTrap v).ignoredBits = 0x0F00#16 := by
  decide

/-- The cond bits of BR, put together again. -/
theorem condBits_append : ∀ a : BitVec 3,
    BitVec.ofBool (a.getLsbD 2) ++ BitVec.ofBool (a.getLsbD 1) ++ BitVec.ofBool (a.getLsbD 0) = a := by
  decide

/-- The low bits of the register form of ADD and AND, outside the ignored bits [4:3]. -/
theorem registerForm_and : ∀ c : BitVec 6, c.getLsbD 5 = false →
    (0#1 ++ 0#2 ++ c.extractLsb' 0 3) &&& (~~~0x0018#16).extractLsb' 0 6 = c &&& (~~~0x0018#16).extractLsb' 0 6 := by
  decide

theorem immediateForm_append : ∀ c : BitVec 6, c.getLsbD 5 = true → 1#1 ++ c.extractLsb' 0 5 = c := by
  decide

/-- The bits [11:9] of JSRR, outside the ignored bits [10:9]. -/
theorem jsrr_and : ∀ a : BitVec 3, a.getLsbD 2 = false →
    (0#1 ++ 0#2) &&& (~~~0x063F#16).extractLsb' 9 3 = a &&& (~~~0x063F#16).extractLsb' 9 3 := by
  decide

theorem jsr_append (c : BitVec 12) (h : c.getLsbD 11 = true) : 1#1 ++ c.extractLsb' 0 11 = c := by
  have hbit : c.extractLsb' 11 1 = 1#1 := by
    apply BitVec.eq_of_getLsbD_eq
    intro k hk
    obtain rfl : k = 0 := by omega
    simpa [BitVec.getLsbD_extractLsb'] using h
  rw [← hbit]
  exact append_halves (n := 1) (m := 11) c

/-- Decoding keeps every named bit. -/
def KeepsNamedBits (w : Word) : Prop :=
  encode (decode w) &&& ~~~(decode w).ignoredBits = w &&& ~~~(decode w).ignoredBits

theorem keepsNamedBits_of_encode {w : Word} (h : encode (decode w) = w) : KeepsNamedBits w :=
  congrArg (· &&& ~~~(decode w).ignoredBits) h

theorem keepsNamedBits_trap {w : Word} (h : opcodeField w = Opcode.trap.code) : KeepsNamedBits w := by
  obtain ⟨c, rfl⟩ := eq_format12 h
  have hd : decode (format12 .trap c) = decodeTrap (c.extractLsb' 0 8) := by
    simp only [decode, h, Opcode.ofCode_code, trapVectorField_format12]
  obtain ⟨henc, hig⟩ := encode_decodeTrap (c.extractLsb' 0 8)
  rw [KeepsNamedBits, hd, henc, hig]
  exact trapWord_and_vector c

theorem keepsNamedBits_call {w : Word} (h : opcodeField w = Opcode.jsr.code) : KeepsNamedBits w := by
  cases h11 : w.getLsbD 11
  · obtain ⟨a, b, c, rfl⟩ := eq_format336 h
    have hd : decode (format336 .jsr a b c) = .jsrr b.toFin := by
      simp only [decode, h, Opcode.ofCode_code, h11, Bool.false_eq_true, if_false, regField_format336_six]
    rw [KeepsNamedBits, hd]
    have ha : a.getLsbD 2 = false := (getLsbD_format336_high .jsr a b c 2 (by decide)).symm.trans h11
    exact format336_and_congr (m := ~~~0x063F#16) .jsr b (jsrr_and a ha) (and_congr_of_unnamed (by decide))
  · obtain ⟨c, rfl⟩ := eq_format12 h
    have hc : c.getLsbD 11 = true := (getLsbD_format12 .jsr c 11 (by decide)).symm.trans h11
    refine keepsNamedBits_of_encode ?_
    simp only [decode, h, Opcode.ofCode_code, h11, if_true, encode, pcOffset11Field_format12, jsr_append c hc]

/-- Settles O3: a word is its opcode and the fields of its format, and encoding writes every field back but the ignored
ones. -/
theorem encodeDecodeKeepsNamedBits : Obligations.EncodeDecodeKeepsNamedBits := by
  unfold Obligations.EncodeDecodeKeepsNamedBits
  intro w
  obtain ⟨op, hop⟩ : ∃ op : Opcode, opcodeField w = op.code := ⟨_, (Opcode.code_ofCode _).symm⟩
  cases op with
  | add | and =>
    obtain ⟨a, b, c, rfl⟩ := eq_format336 hop
    have h5 := fun op => getLsbD_format336_low op a b c 5 (by decide)
    cases hc : c.getLsbD 5
    · simp only [decode, hop, Opcode.ofCode_code, h5, hc, Bool.false_eq_true, if_false, regField_format336_nine,
        regField_format336_six, regField_format336_zero]
      exact format336_and_congr _ _ rfl (registerForm_and c hc)
    · refine keepsNamedBits_of_encode ?_
      simp only [decode, hop, Opcode.ofCode_code, h5, hc, if_true, regField_format336_nine, regField_format336_six,
        imm5Field_format336, encode, immediateForm_append c hc]
      rfl
  | not =>
    obtain ⟨a, b, c, rfl⟩ := eq_format336 hop
    simp only [decode, hop, Opcode.ofCode_code, regField_format336_nine, regField_format336_six]
    exact format336_and_congr (m := ~~~0x003F#16) _ _ rfl (and_congr_of_unnamed (by decide))
  | jmp =>
    obtain ⟨a, b, c, rfl⟩ := eq_format336 hop
    simp only [decode, hop, Opcode.ofCode_code, regField_format336_six]
    exact format336_and_congr (m := ~~~0x0E3F#16) _ _ (and_congr_of_unnamed (by decide))
      (and_congr_of_unnamed (by decide))
  | br =>
    obtain ⟨a, c, rfl⟩ := eq_format39 hop
    have h11 := getLsbD_format39_high .br a c 2 (by decide)
    have h10 := getLsbD_format39_high .br a c 1 (by decide)
    have h9 := getLsbD_format39_high .br a c 0 (by decide)
    refine keepsNamedBits_of_encode ?_
    simp only [decode, hop, Opcode.ofCode_code, h11, h10, h9, pcOffset9Field_format39, encode, condBits_append]
  | jsr => exact keepsNamedBits_call hop
  | trap => exact keepsNamedBits_trap hop
  | ld | ldi | lea | st | sti =>
    obtain ⟨a, c, rfl⟩ := eq_format39 hop
    refine keepsNamedBits_of_encode ?_
    simp only [decode, hop, Opcode.ofCode_code, regField_format39_nine, pcOffset9Field_format39, encode]
    rfl
  | ldr | str =>
    obtain ⟨a, b, c, rfl⟩ := eq_format336 hop
    refine keepsNamedBits_of_encode ?_
    simp only [decode, hop, Opcode.ofCode_code, regField_format336_nine, regField_format336_six,
      offset6Field_format336, encode]
    rfl
  | rti | res =>
    obtain ⟨c, rfl⟩ := eq_format12 hop
    refine keepsNamedBits_of_encode ?_
    simp only [decode, hop, Opcode.ofCode_code, low12_format12, encode, rtiWord, resWord]

/-! ## Ignored bits -/

/-- The words `x` and `w` agree on every bit of the mask. -/
def AgreeOn (m x w : Word) : Prop := x &&& m = w &&& m

theorem AgreeOn.extract {m x w : Word} (h : AgreeOn m x w) (lo len : Nat)
    (hm : m.extractLsb' lo len = BitVec.allOnes len) : x.extractLsb' lo len = w.extractLsb' lo len := by
  have hfield := congrArg (BitVec.extractLsb' lo len) h
  simpa only [BitVec.extractLsb'_and, hm, BitVec.and_allOnes] using hfield

theorem AgreeOn.regField {m x w : Word} (h : AgreeOn m x w) (lo : Nat) (hm : m.extractLsb' lo 3 = BitVec.allOnes 3) :
    regField x lo = regField w lo := congrArg BitVec.toFin (h.extract lo 3 hm)

theorem AgreeOn.bit {m x w : Word} (h : AgreeOn m x w) (k : Nat) (hm : m.getLsbD k = true) :
    x.getLsbD k = w.getLsbD k := by
  rw [getLsbD_of_masked h hm, BitVec.getLsbD_and, hm, Bool.and_true]

/-- A word that is changed only in ignored bits agrees with itself on the others. -/
theorem agreeOn_xor (w v ig : Word) : AgreeOn (~~~ig) (w ^^^ (v &&& ig)) w := by
  apply BitVec.eq_of_getLsbD_eq
  intro k hk
  simp only [BitVec.getLsbD_and, BitVec.getLsbD_xor, BitVec.getLsbD_not]
  cases ig.getLsbD k <;> simp

theorem eq_of_agreeOn_all {x w : Word} (h : AgreeOn (~~~0x0000#16) x w) : x = w := by
  have hm : ~~~0x0000#16 = BitVec.allOnes 16 := rfl
  simpa only [AgreeOn, hm, BitVec.and_allOnes] using h

/-- The decoder reads no ignored bit. -/
theorem decode_of_agreeOn {x w : Word} (h : AgreeOn (~~~(decode w).ignoredBits) x w) : decode x = decode w := by
  obtain ⟨op, hop⟩ : ∃ op : Opcode, opcodeField w = op.code := ⟨_, (Opcode.code_ofCode _).symm⟩
  have hx : ∀ {m : Word}, AgreeOn m x w → m.extractLsb' 12 4 = BitVec.allOnes 4 → opcodeField x = op.code :=
    fun h hm => (h.extract 12 4 hm).trans hop
  cases op with
  | add | and =>
    cases h5 : w.getLsbD 5
    · simp only [decode, hop, Opcode.ofCode_code, h5, Bool.false_eq_true, if_false] at h ⊢
      replace h : AgreeOn (~~~0x0018#16) x w := h
      simp only [hx h (by decide), Opcode.ofCode_code, h.bit 5 (by decide), h5, Bool.false_eq_true, if_false,
        h.regField 9 (by decide), h.regField 6 (by decide), h.regField 0 (by decide)]
    · simp only [decode, hop, Opcode.ofCode_code, h5, if_true] at h
      rw [eq_of_agreeOn_all h]
  | not =>
    simp only [decode, hop, Opcode.ofCode_code] at h ⊢
    replace h : AgreeOn (~~~0x003F#16) x w := h
    simp only [hx h (by decide), Opcode.ofCode_code, h.regField 9 (by decide), h.regField 6 (by decide)]
  | jmp =>
    simp only [decode, hop, Opcode.ofCode_code] at h ⊢
    replace h : AgreeOn (~~~0x0E3F#16) x w := h
    simp only [hx h (by decide), Opcode.ofCode_code, h.regField 6 (by decide)]
  | jsr =>
    cases h11 : w.getLsbD 11
    · simp only [decode, hop, Opcode.ofCode_code, h11, Bool.false_eq_true, if_false] at h ⊢
      replace h : AgreeOn (~~~0x063F#16) x w := h
      simp only [hx h (by decide), Opcode.ofCode_code, h.bit 11 (by decide), h11, Bool.false_eq_true, if_false,
        h.regField 6 (by decide)]
    · simp only [decode, hop, Opcode.ofCode_code, h11, if_true] at h
      rw [eq_of_agreeOn_all h]
  | trap =>
    simp only [decode, hop, Opcode.ofCode_code, (encode_decodeTrap _).2] at h ⊢
    have hv : trapVectorField x = trapVectorField w := h.extract 0 8 (by decide)
    simp only [hx h (by decide), Opcode.ofCode_code, hv]
  | _ =>
    simp only [decode, hop, Opcode.ofCode_code] at h
    rw [eq_of_agreeOn_all h]

/-- Settles O4: the decoder reads named bits only, and the bits [11:0] of RTI and RES go into FatalInfo alone. -/
theorem ignoredBitsPlayNoPart : Obligations.IgnoredBitsPlayNoPart := by
  unfold Obligations.IgnoredBitsPlayNoPart
  refine ⟨fun w v => decode_of_agreeOn (agreeOn_xor w v _), fun x y s t h => ?rti, fun x y s t h => ?res⟩
  case rti | res =>
    cases h
    rfl

end Sys2Proof.Machine
end

section
/-! Operate, control and reserved instructions (40_operate.md, 41_control.md, 44_reserved.md): what is left of them
after their words. -/

namespace Sys2Proof.Machine

/-! ## Operate -/

/-- Settles O5: each word meets its row, and the fields are computed. -/
theorem sampleWordsDecode : Obligations.SampleWordsDecode := by
  unfold Obligations.SampleWordsDecode
  decide

/-- Settles O7: the three cases of `condOf`, bit 15 read as R7 reads it. -/
theorem updateFlagsFollowsTheValue : Obligations.UpdateFlagsFollowsTheValue := by
  unfold Obligations.UpdateFlagsFollowsTheValue
  intro s r
  rw [State.updateFlags_cond]
  refine ⟨fun hz => ?zero, fun hz hbit => ?negative, fun hz hbit => ?positive, rfl⟩
  case zero => rw [condOf, if_pos hz]
  case negative => rw [condOf, if_neg hz, getLsbD_eq_bitsOf, hbit]; rfl
  case positive => rw [condOf, if_neg hz, getLsbD_eq_bitsOf, hbit]; rfl

theorem exec_not (dr sr : RegNum) (s : State) : exec (.not dr sr) s = .next (s.setResult dr (~~~ s.reg sr)) := rfl

/-- Settles O12: the opcode alone picks NOT, and the complement of a word is taken bit by bit. -/
theorem notForm : Obligations.NotForm := by
  unfold Obligations.NotForm
  refine ⟨fun w => decode_not_row, fun dr sr s => ?_⟩
  obtain ⟨t, hexec, hval, hcond, hframe⟩ := completes_of_setResult (exec_not dr sr s)
  refine ⟨t, hexec, fun k hk => ?_, hcond, hframe⟩
  rw [hval, BitVec.getLsbD_not, decide_eq_true hk, Bool.true_and]

/-- Settles O13: both forms of ADD, and of AND, define DR by the same second operand. -/
theorem registerAndImmediateFormsAgree : Obligations.RegisterAndImmediateFormsAgree := by
  unfold Obligations.RegisterAndImmediateFormsAgree
  intro dr sr1 sr2 imm5 s h
  rw [exec_addReg, exec_addImm, exec_andReg, exec_andImm, h]
  exact ⟨rfl, rfl⟩

/-! ## Control -/

theorem exec_br_taken {n z p : Bool} {s : State} (off9 : BitVec 9) (h : branchTaken n z p s.cond = true) :
    exec (.br n z p off9) s = .next (s.setPc (s.pc + signedWord off9)) :=
  congrArg Host.Outcome.next (if_pos h)

theorem exec_br_not_taken {n z p : Bool} {s : State} (off9 : BitVec 9) (h : ¬ branchTaken n z p s.cond = true) :
    exec (.br n z p off9) s = .next s :=
  congrArg Host.Outcome.next (if_neg h)

/-- Settles O14: `branchTaken` is the statement's condition, and BR writes PC or nothing. -/
theorem branchOnCond : Obligations.BranchOnCond := by
  unfold Obligations.BranchOnCond
  refine ⟨fun w => decode_br_row, fun n z p off9 s => ?_⟩
  rw [← branchTaken_iff]
  by_cases h : branchTaken n z p s.cond = true
  · refine ⟨_, exec_br_taken off9 h, fun _ => ?target, fun hn => absurd h hn, fun _ => rfl, transfersOnly_of_eq rfl⟩
    case target => rw [State.setPc_pc, toNat_add_signedWord]
  · exact ⟨s, exec_br_not_taken off9 h, fun hy => absurd hy h, fun _ => rfl, fun _ => rfl, transfersOnly_of_eq rfl⟩

/-- A word up to 0x01FF is BR with no cond bit (R79). -/
theorem decode_branch_never {w : Word} (h : w.toNat ≤ 0x01FF) : decode w = .br false false false (lowOf 9 w) := by
  have hrow : w &&& 0xF000#16 = 0x0000#16 := by
    have hop : opcodeField w = 0#4 := by
      apply BitVec.eq_of_toNat_eq
      rw [opcodeField, BitVec.extractLsb'_toNat, Nat.shiftRight_eq_div_pow, Nat.div_eq_of_lt (by omega)]
      rfl
    rw [and_opcodeMask, hop]
    rfl
  have hbit : ∀ k, 9 ≤ k → bitsOf w k k = 0 := by
    intro k hk
    have hpow : 2 ^ 9 ≤ 2 ^ k := Nat.pow_le_pow_right (by decide) hk
    rw [bitsOf, Nat.div_eq_of_lt (by omega), Nat.zero_mod]
  rw [decode_br_row hrow, hbit 11 (by decide), hbit 10 (by decide), hbit 9 (by decide)]
  rfl

/-- Settles O15: with no cond bit BR is not taken, with all three it is, whatever COND holds. -/
theorem branchNeverAndAlways : Obligations.BranchNeverAndAlways := by
  unfold Obligations.BranchNeverAndAlways
  refine ⟨fun w s h => ?never, fun off9 s => ⟨_, exec_br_taken off9 ?always, State.setPc_pc ..⟩⟩
  case never =>
    rw [decode_branch_never h]
    exact exec_br_not_taken _ (by simp [branchTaken_iff])
  case always =>
    rw [branchTaken_iff]
    cases s.cond <;> simp

theorem exec_jsrr (base : RegNum) (s : State) : exec (.jsrr base) s = .next (s.link.setPc (s.link.reg base)) := rfl

/-- Settles O18: bit 11 clear picks JSRR; the base is read through the link, which is PC for base 7. -/
theorem callThroughRegister : Obligations.CallThroughRegister := by
  unfold Obligations.CallThroughRegister
  refine ⟨fun w => decode_jsrr_row,
    fun base s => ⟨_, exec_jsrr base s, ?link, fun hb => ?other, fun hb => ?seven, ?regs, transfersOnly_of_eq rfl⟩⟩
  case link => rw [State.setPc_reg, State.link_reg_seven]
  case other => rw [State.setPc_pc, s.link_reg_ne base hb]
  case seven => rw [State.setPc_pc, hb, State.link_reg_seven]
  case regs => exact fun r hr => by rw [State.setPc_reg, s.link_reg_ne r hr]

/-! ## Reserved opcodes -/

/-- An opcode and bits [11:0] written back give the word. -/
theorem format12_lowOf {w c : Word} {op : Opcode} (h : w &&& 0xF000#16 = c) (hc : opcodeField c = op.code) :
    format12 op (lowOf 12 w) = w := by
  have hop : opcodeField w = op.code := (opcodeField_of_masked w c h).trans hc
  rw [format12, ← low12_eq_lowOf, ← hop, append_fields12]

/-- RTI and RES answer the fatal outcome with the address before PC, which is the address of the fetch (R202). -/
theorem completes_of_raiseFatal {i : Instr} {s : State} {cause : FatalCause} {w : Word}
    (h : exec i s = .next (raiseFatal { cause := cause, addr := s.pc - 1#16, word := w } s)) :
    ∃ t, exec i s = .next t ∧ t.runState = .fatal ∧
      (∃ f, t.fatalInfo = some f ∧ f.cause = cause ∧ f.addr + 1#16 = s.pc ∧ f.word = w) ∧
      t = { s with runState := t.runState, fatalInfo := t.fatalInfo } :=
  ⟨_, h, rfl, ⟨_, rfl, rfl, BitVec.sub_add_cancel .., rfl⟩, rfl⟩

/-- Settles O47: the opcode alone picks RTI, which only raises its fatal outcome. -/
theorem rtiIsFatal : Obligations.RtiIsFatal := by
  unfold Obligations.RtiIsFatal
  exact ⟨fun w h => ⟨decode_rti_row h, format12_lowOf h rfl⟩, fun low s => completes_of_raiseFatal rfl⟩

/-- Settles O48: the opcode alone picks RES, which only raises its fatal outcome. -/
theorem resIsFatal : Obligations.ResIsFatal := by
  unfold Obligations.ResIsFatal
  exact ⟨fun w h => ⟨decode_res_row h, format12_lowOf h rfl⟩, fun low s => completes_of_raiseFatal rfl⟩

end Sys2Proof.Machine
end

section
/-! Memory (20_memory.md R40 to R48, R57, R58): what a read gives, when two canonical memories are equal, and what
loading images leaves. -/

namespace Sys2Proof.Machine

/-! ## MemRead and MemWrite -/

/-- Away from KBSR_ADDR a read gives the stored word and changes nothing (R43). -/
theorem memRead_of_ne {a : Word} {s : State} (h : a ≠ s.params.kbsrAddr) : memRead a s = (s.word a, s) := by
  rw [memRead, pollIfStatus_of_ne a s h]

/-- At KBSR_ADDR a read gives the word its own poll has just written (R44). -/
theorem memRead_status (s : State) (h : s.params.kbsrAddr ≠ s.params.kbdrAddr) :
    (memRead s.params.kbsrAddr s).1 = 0x8000#16 ∨ (memRead s.params.kbsrAddr s).1 = 0x0000#16 := by
  have hp := polled_keyboardPoll s
  rw [memRead_fst, pollIfStatus_of_eq _ s rfl]
  cases hr : (inPoll s).1 with
  | some c => exact .inl (hp.found_status c hr h)
  | none => exact .inr (hp.empty_status hr)

/-- Settles O19: the laws of the poll and of MemRead, as the loads use them. -/
theorem memReadPollsAtStatus : Obligations.MemReadPollsAtStatus := by
  unfold Obligations.MemReadPollsAtStatus
  exact ⟨fun s => ⟨_, _, polled_keyboardPoll s⟩, readAt_memRead⟩

/-- Settles O20: a store is plain everywhere; the read at KBSR_ADDR sees its poll and not the store, the read at
KBDR_ADDR sees the store. -/
theorem memWriteIsPlain : Obligations.MemWriteIsPlain := by
  unfold Obligations.MemWriteIsPlain
  refine ⟨fun a v s => stores_memWrite s a v, fun s v hne => ⟨?status, ?data⟩⟩
  case status => exact memRead_status (s.memWrite s.params.kbsrAddr v) hne
  case data =>
    have hread : memRead s.params.kbdrAddr (s.memWrite s.params.kbdrAddr v) =
        (v, s.memWrite s.params.kbdrAddr v) := by
      rw [memRead_of_ne (s := s.memWrite s.params.kbdrAddr v) (Ne.symm hne), State.memWrite_word_self]
    rw [hread]
    exact ⟨rfl, hread⟩

/-! ## Canonical memories -/

/-- A canonical memory lists exactly the non-zero words, at the addresses they are read at. -/
theorem Memory.mem_iff_read {m : Memory} (h : m.wf) (c : Nat × Word) :
    c ∈ m ↔ c.1 < 65536 ∧ c.2 ≠ unlistedWord ∧ m.read c.1 = c.2 := by
  induction m with
  | nil => simpa [unlistedWord] using fun _ hc => Ne.symm hc
  | cons d m ih =>
    obtain ⟨hsorted, hwords⟩ := h
    obtain ⟨hd, hm⟩ := List.pairwise_cons.mp hsorted
    obtain ⟨hdw, hmw⟩ := List.forall_mem_cons.mp hwords
    have ihm := ih ⟨hm, hmw⟩
    rw [List.mem_cons, Memory.read_cons]
    by_cases hcd : d.1 = c.1
    · rw [if_pos hcd]
      constructor
      · rintro (rfl | hc)
        · exact ⟨hdw.1, hdw.2, rfl⟩
        · exact absurd hcd (Nat.ne_of_lt (hd c hc))
      · rintro ⟨-, -, hv⟩
        exact .inl (Prod.ext hcd.symm hv.symm)
    · rw [if_neg hcd, ← ihm]
      exact or_iff_right fun e => hcd (e ▸ rfl)

theorem Memory.eq_of_read {m n : Memory} (hm : m.wf) (hn : n.wf) (h : ∀ a, a < 65536 → m.read a = n.read a) :
    m = n := by
  have hmem : ∀ c, c ∈ m ↔ c ∈ n := by
    intro c
    rw [Memory.mem_iff_read hm, Memory.mem_iff_read hn]
    exact and_congr_right fun hc => by rw [h c.1 hc]
  have : Std.Antisymm fun c d : Nat × Word => c.1 < d.1 := ⟨fun _ _ hcd hdc => absurd hcd (Nat.lt_asymm hdc)⟩
  have : Std.Irrefl fun c d : Nat × Word => c.1 < d.1 := ⟨fun _ => Nat.lt_irrefl _⟩
  exact hm.1.eq_of_mem_iff hn.1 hmem

/-- Settles O21: a canonical memory is its list of non-zero words in order, so what is read determines it; writing back
what is read changes no read. -/
theorem memoryIsCanonical : Obligations.MemoryIsCanonical := by
  unfold Obligations.MemoryIsCanonical
  refine ⟨fun m n => Memory.eq_of_read, fun m a v hm => ⟨Memory.wf_write m a.toNat v a.isLt hm, ?back⟩⟩
  case back =>
    refine Memory.eq_of_read (Memory.wf_write m a.toNat _ a.isLt hm) hm fun b _ => ?_
    rw [Memory.read_write]
    split
    · next hb => rw [hb]
    · rfl

/-! ## Images -/

/-- Loading from `a` on leaves the words below `a`, and those past the last word. -/
theorem loadWords_read_other (ws : List Word) : ∀ (a : Nat) (m : Memory) (b : Nat),
    (∀ k, k < ws.length → a + k ≠ b) → (loadWords a ws m).read b = m.read b := by
  induction ws with
  | nil => exact fun _ _ _ _ => rfl
  | cons w ws ih =>
    intro a m b h
    rw [loadWords]
    split
    · rfl
    · have hlater : ∀ k, k < ws.length → a + 1 + k ≠ b :=
        fun k hk e => h (k + 1) (Nat.succ_lt_succ hk) (by omega)
      have hfirst : b ≠ a := fun e => h 0 (Nat.succ_pos _) e.symm
      rw [ih (a + 1) _ b hlater, Memory.read_write, if_neg hfirst]

/-- The `k`-th word stands at `a + k`, where that is an address. -/
theorem loadWords_read (ws : List Word) : ∀ (a : Nat) (m : Memory) (k : Nat) (w : Word),
    ws[k]? = some w → a + k < 65536 → (loadWords a ws m).read (a + k) = w := by
  induction ws with
  | nil => exact fun _ _ _ _ h => by simp at h
  | cons v ws ih =>
    intro a m k w hw ha
    rw [loadWords, if_neg (by omega)]
    cases k with
    | zero =>
      rw [loadWords_read_other ws (a + 1) _ (a + 0) fun k _ => by omega, Memory.read_write, if_pos (Nat.add_zero a)]
      exact Option.some.inj hw
    | succ k =>
      rw [show a + (k + 1) = a + 1 + k by omega]
      exact ih (a + 1) _ k w hw (by omega)

/-- Settles O22: an image's own words by induction along it, and loading is a fold over the images. -/
theorem imagesLoadInOrder : Obligations.ImagesLoadInOrder := by
  unfold Obligations.ImagesLoadInOrder
  refine ⟨fun m img a => ⟨fun k w hw ha => ?placed, fun h => ?kept⟩, fun imgs last debug bps => ⟨?order, rfl⟩⟩
  case placed =>
    rw [← ha]
    exact loadWords_read img.words _ m k w hw (ha ▸ a.isLt)
  case kept => exact loadWords_read_other img.words _ m a.toNat h
  case order => exact List.foldl_append

/-- Arguments that all loaded are a list of images. -/
theorem eq_map_some_of_all {args : List (Option Image)} (h : args.all Option.isSome = true) :
    args = (args.filterMap id).map some := by
  induction args with
  | nil => rfl
  | cons a args ih =>
    rw [List.all_cons, Bool.and_eq_true] at h
    obtain ⟨img, rfl⟩ := Option.isSome_iff_exists.mp h.1
    exact congrArg (some img :: ·) (ih h.2)

theorem hostStart_some (img : Image) (rest : List (Option Image)) (debug : Bool) (bps : List Word) :
    hostStart (some img :: rest) debug bps =
      if rest.all Option.isSome then .runs (boot (img :: rest.filterMap id) debug bps) else .exits (.code 1) := rfl

theorem hostStart_images (img : Image) (imgs : List Image) (debug : Bool) (bps : List Word) :
    hostStart ((img :: imgs).map some) debug bps = .runs (boot (img :: imgs) debug bps) := by
  have hall : (imgs.map some).all Option.isSome = true := by simp
  rw [List.map_cons, hostStart_some, if_pos hall, List.filterMap_map]
  simp

/-- Settles O23: the three shapes of the arguments, and the four RunStates. -/
theorem hostStartsOnlyWithAllImages : Obligations.HostStartsOnlyWithAllImages := by
  unfold Obligations.HostStartsOnlyWithAllImages
  refine ⟨fun args debug bps s => ⟨fun h => ?runs, fun h => ?started⟩, fun _ _ => rfl,
    fun img rest debug bps hnone => ?fails, fun r => by cases r <;> simp [exitStatus], rfl, rfl, rfl⟩
  case runs =>
    match args, h with
    | some img :: rest, h =>
      rw [hostStart_some] at h
      split at h
      · next hall =>
        refine ⟨img :: rest.filterMap id, by simp, ?_, (Start.runs.inj h).symm⟩
        rw [List.map_cons, ← eq_map_some_of_all hall]
      · cases h
  case started =>
    obtain ⟨_ | ⟨img, imgs⟩, hne, rfl, rfl⟩ := h
    · exact absurd rfl hne
    · exact hostStart_images img imgs debug bps
  case fails =>
    rw [hostStart_some, if_neg]
    intro hall
    simpa using List.all_eq_true.mp hall none hnone

theorem loadImages_wf (imgs : List Image) : ∀ m : Memory, m.wf → (loadImages imgs m).wf := by
  induction imgs with
  | nil => exact fun _ h => h
  | cons img imgs ih => exact fun m h => ih _ (loadImage_wf m img h)

/-- Settles O59: loading keeps memory canonical, and nothing has run yet. -/
theorem bootMeetsTheInvariant : Obligations.BootMeetsTheInvariant := by
  unfold Obligations.BootMeetsTheInvariant
  have hboot : ∀ (imgs : List Image) (debug : Bool) (bps : List Word), (boot imgs debug bps).Inv :=
    fun imgs debug bps =>
    { mem_wf := loadImages_wf imgs [] Memory.wf_nil
      kbsr_ne_kbdr := (by decide : Params.default.kbsrAddr ≠ Params.default.kbdrAddr)
      fatal_iff := iff_of_false Bool.false_ne_true nofun
      fatal_record := nofun
      bp_hold := nofun
      hold_running := fun h => absurd rfl h }
  exact ⟨hboot [] false [], hboot⟩

/-- Images leave every word that none of them covers. -/
theorem loadImages_read_other (imgs : List Image) : ∀ (m : Memory) (a : Nat),
    (∀ img ∈ imgs, ∀ k : Nat, k < img.words.length → img.origin.toNat + k ≠ a) →
      (loadImages imgs m).read a = m.read a := by
  induction imgs with
  | nil => exact fun _ _ _ => rfl
  | cons img imgs ih =>
    intro m a h
    obtain ⟨himg, himgs⟩ := List.forall_mem_cons.mp h
    exact (ih (loadImage m img) a himgs).trans (loadWords_read_other img.words _ m a himg)

/-- Settles O60: a booted state is the reset state but for memory and the debug configuration. -/
theorem resetValues : Obligations.ResetValues := by
  unfold Obligations.ResetValues
  intro imgs debug bps
  refine ⟨fun r => ?regs, rfl, rfl, rfl, rfl, rfl, rfl,
    fun a h => loadImages_read_other imgs [] a.toNat h, fun _ => rfl⟩
  case regs => exact Vector.getElem_replicate r.isLt

/-! ## The round trip through memory -/

/-- Settles O31: the second store, at P, leaves the pointer at A, so LDI reads P there and then what stands at P. -/
theorem ldiRoundTrip : Obligations.LdiRoundTrip := by
  unfold Obligations.LdiRoundTrip
  intro sr1 sr2 dr off1 off2 off3 pc2 pc3 s t1 t2 t3 A P hA hP hAP h1 hpc2 h2 hpc3 h3
  rw [exec_st] at h1 h2
  cases h1
  cases h2
  rw [State.setPc_pc, hpc2] at h3
  rw [exec_ldi, State.setPc_pc, hpc3] at h3
  generalize hu : (((s.memWrite A P).setPc pc2).memWrite P _).setPc pc3 = u at h3
  have hparams : u.params = s.params := by rw [← hu]; rfl
  have hpointer : u.word A = P := by
    rw [← hu, State.setPc_word, State.memWrite_word_ne _ _ _ _ hAP, State.setPc_word, State.memWrite_word_self]
  have hvalue : u.word P = s.reg sr2 := by
    rw [← hu, State.setPc_word, State.memWrite_word_self]
    rfl
  rw [memRead_of_ne (hparams ▸ hA), hpointer] at h3
  cases h3
  rw [loadFrom, memRead_of_ne (hparams ▸ hP), State.setResult_reg_self, hvalue]

end Sys2Proof.Machine
end

section
/-! What one step can do (70_reset_and_hazards.md R243, 60_exceptions.md R213, R219), said once: it executes a word, in
a state it reaches without executing anything, or it executes nothing and goes on or is cancelled. -/

namespace Sys2Proof.Machine

/-! ## The fetch and the wait -/

/-- With no breakpoint at PC the fetched word is run at once. -/
theorem fetchThen_plain (run : Word → State → Result) {s : State} (h : ¬ HitsBreakpoint s s.pc) :
    fetchThen run s = run (memRead s.pc s).1 ((memRead s.pc s).2.setPc (s.pc + 1#16)) := by
  have hit : ¬ (fetch s).2.breakpointHit s.pc = true := by
    simpa [breakpointHit_iff, HitsBreakpoint, fetch_eq] using h
  exact if_neg hit

/-- At a breakpoint the fetch is reported, and then the block waits. -/
theorem fetchThen_hit (run : Word → State → Result) {s : State} (h : HitsBreakpoint s s.pc) : fetchThen run s =
    awaitConfirm s.pc (memRead s.pc s).1 (run (memRead s.pc s).1)
      (reportBreakpoint s.pc (memRead s.pc s).1 ((memRead s.pc s).2.setPc (s.pc + 1#16))) := by
  have hit : (fetch s).2.breakpointHit s.pc = true := by
    simpa [breakpointHit_iff, HitsBreakpoint, fetch_eq] using h
  exact if_pos hit

/-- The state at a boundary once the boundary's cancel point is passed. -/
def passed (s : State) : State := { s with cancelAfter := passPoint s.cancelAfter }

theorem step_plain {s : State} (h : AtBoundary s) (hbp : ¬ HitsBreakpoint s s.pc) :
    step s = execWord (memRead s.pc (passed s)).1 ((memRead s.pc (passed s)).2.setPc (s.pc + 1#16)) :=
  (step_boundary s h).trans (fetchThen_plain execWord (s := passed s) hbp)

theorem step_hit {s : State} (h : AtBoundary s) (hbp : HitsBreakpoint s s.pc) : step s =
    awaitConfirm s.pc (memRead s.pc (passed s)).1 (execWord (memRead s.pc (passed s)).1)
      (reportBreakpoint s.pc (memRead s.pc (passed s)).1 ((memRead s.pc (passed s)).2.setPc (s.pc + 1#16))) :=
  (step_boundary s h).trans (fetchThen_hit execWord (s := passed s) hbp)

/-! ## What every part of a step keeps -/

theorem SameConfig.trans {s t u : State} (h : SameConfig s t) (k : SameConfig t u) : SameConfig s u where
  debugEnabled := k.debugEnabled.trans h.debugEnabled
  breakpoints := k.breakpoints.trans h.breakpoints
  params := k.params.trans h.params

/-- `Evolves` for a whole step: it may take confirmations, and a breakpoint at its own PC adds signals. -/
structure StepEvolves (s t : State) : Prop where
  config : SameConfig s t
  output : s.output <+: t.output
  polls : t.polls <:+ s.polls
  reads : t.reads <:+ s.reads
  draw : s.pollDraw ≤ t.pollDraw
  confirms : t.confirms ≤ s.confirms
  bpHits : s.bpHits <+: t.bpHits
  no_hit : ¬ HitsBreakpoint s s.pc → t.bpHits = s.bpHits
  wf : s.mem.wf → t.mem.wf

theorem Evolves.stepEvolves {s t : State} (h : Evolves s t) : StepEvolves s t where
  config := h.config
  output := h.output
  polls := h.polls
  reads := h.reads
  draw := h.draw
  confirms := h.confirms.le
  bpHits := by rw [h.bpHits]
  no_hit := fun _ => h.bpHits
  wf := h.wf

theorem StepEvolves.trans_evolves {s t u : State} (h : StepEvolves s t) (k : Evolves t u) : StepEvolves s u where
  config := h.config.trans k.config
  output := h.output.trans k.output
  polls := k.polls.trans h.polls
  reads := k.reads.trans h.reads
  draw := h.draw.trans k.draw
  confirms := k.confirms.trans_le h.confirms
  bpHits := by rw [k.bpHits]; exact h.bpHits
  no_hit := fun hn => k.bpHits.trans (h.no_hit hn)
  wf := fun x => k.wf (h.wf x)

/-- A confirmation is taken. -/
theorem StepEvolves.take_confirm {s r : State} {n : Nat} (h : StepEvolves s r) (hn : r.confirms = n + 1) :
    StepEvolves s { r with confirms := n } :=
  { h with
    config := h.config.trans ⟨rfl, rfl, rfl⟩
    confirms := (Nat.le_succ n).trans (hn.symm.le.trans h.confirms) }

/-- What a bp_confirm hold at `a` rests on: it is the hold the step began in, or the step has just signalled it after
its fetch at a breakpoint. -/
def HoldsAt (s r : State) (a w : Word) : Prop :=
  (s.phase = .bpConfirm a w ∧ r.pc = s.pc ∧ r.bpHits = s.bpHits) ∨
  (HitsBreakpoint s a ∧ r.pc = a + 1#16 ∧ r.bpHits.getLast? = some (a, w))

/-- `r` is reached in the step of `s`, with nothing executed so far. -/
structure Reaches (s r : State) : Prop where
  evolves : StepEvolves s r
  runState : r.runState = s.runState
  fatalInfo : r.fatalInfo = s.fatalInfo
  cancel : r.cancelAfter ≠ none → s.cancelAfter ≠ none
  hold : ∀ a w, r.phase = .bpConfirm a w → HoldsAt s r a w

/-- `t` ends a step of `s` after which the run goes on, unless a pending cancel ended it. -/
structure GoesOn (s t : State) : Prop where
  evolves : StepEvolves s t
  run : t.runState = s.runState ∨ (t.runState = .cancelled ∧ s.cancelAfter ≠ none)
  fatalInfo : t.fatalInfo = s.fatalInfo
  hold : ∀ a w, t.phase = .bpConfirm a w → HoldsAt s t a w

/-- `v` is the state in which the step of `s` executes the word `w`. -/
structure Executes (s : State) (w : Word) (v : State) : Prop where
  word : ExecutesWord s w
  reaches : Reaches s v
  phase : v.phase = .boundary

theorem Reaches.refl (s : State) : Reaches s s :=
  ⟨(Evolves.refl s).stepEvolves, rfl, rfl, id, fun _ _ h => .inl ⟨h, rfl, rfl⟩⟩

section Wait
variable {s r : State}

theorem Reaches.cancelled (h : Reaches s r) (hc : r.cancelAfter = some 0) :
    GoesOn s { r with runState := .cancelled, cancelAfter := none } :=
  ⟨h.evolves.trans_evolves (.of_eq rfl), .inr ⟨rfl, h.cancel (by simp [hc])⟩, h.fatalInfo, h.hold⟩

theorem Reaches.held (h : Reaches s r) {a w : Word} (hold : HoldsAt s r a w) (c : Option Nat) :
    GoesOn s { r with cancelAfter := c, phase := .bpConfirm a w } :=
  ⟨h.evolves.trans_evolves (.of_eq rfl), .inl h.runState, h.fatalInfo, fun _ _ e => by cases e; exact hold⟩

theorem Reaches.confirmed (h : Reaches s r) {n : Nat} (hn : r.confirms = n + 1) :
    Reaches s { r with cancelAfter := passPoint r.cancelAfter, confirms := n, phase := .boundary } :=
  ⟨(h.evolves.take_confirm hn).trans_evolves (.of_eq rfl), h.runState, h.fatalInfo,
    fun hc => h.cancel (passPoint_ne_none _ hc), fun _ _ e => by cases e⟩

end Wait

/-- The two ways a step goes: it goes on with nothing executed, or it is the execution of one word. -/
def Goes (s : State) (r : Result) : Prop :=
  (∃ t, r = .next t ∧ GoesOn s t) ∨ ∃ w v, Executes s w v ∧ r = exec (decode w) v

/-- The wait for bp_confirm, from a state that the step of `s` reaches. -/
theorem Reaches.awaitConfirm_goes {s r : State} {a w : Word} (h : Reaches s r) (hw : ExecutesWord s w)
    (hold : HoldsAt s r a w) : Goes s (awaitConfirm a w (execWord w) r) := by
  by_cases hc : r.cancelAfter = some 0
  · exact .inl ⟨_, awaitConfirm_cancel a w _ r hc, h.cancelled hc⟩
  · rcases hn : r.confirms with _ | n
    · exact .inl ⟨_, awaitConfirm_hold a w _ r hc hn, h.held hold _⟩
    · exact .inr ⟨w, _, ⟨hw, h.confirmed hn, rfl⟩, awaitConfirm_go a w _ r n hc hn⟩

/-! ## The parts of a step at a boundary -/

/-- What the fetch leaves: PC incremented, after its poll. -/
def fetched (s : State) : State := (memRead s.pc (passed s)).2.setPc (s.pc + 1#16)

theorem executesWord_fetch {s : State} (h : s.phase = .boundary) : ExecutesWord s (memRead s.pc (passed s)).1 :=
  .inl ⟨h, _, readAt_memRead s.pc (passed s)⟩

theorem evolves_fetched (s : State) : Evolves s (fetched s) :=
  Evolves.trans (t := passed s) (.of_eq rfl) (evolves_fetch (passed s))

theorem reaches_fetched {s : State} (h : s.phase = .boundary) : Reaches s (fetched s) where
  evolves := (evolves_fetched s).stepEvolves
  runState := pollIfStatus_runState ..
  fatalInfo := pollIfStatus_fatalInfo ..
  cancel := fun hc => by
    have hpass : (fetched s).cancelAfter = passPoint s.cancelAfter := pollIfStatus_cancelAfter ..
    exact passPoint_ne_none _ (hpass ▸ hc)
  hold := fun a w e => by
    have hp : (fetched s).phase = s.phase := pollIfStatus_phase ..
    rw [hp, h] at e
    cases e

/-- At a breakpoint the report adds the one signal, and it is the last. -/
theorem reaches_report {s : State} (h : s.phase = .boundary) (hbp : HitsBreakpoint s s.pc) (w : Word) :
    Reaches s (reportBreakpoint s.pc w (fetched s)) := by
  have hf := reaches_fetched h
  have he := hf.evolves
  rw [reportBreakpoint_eq]
  refine ⟨{ he with config := ?config, output := ?output, bpHits := ?bpHits, no_hit := fun hn => absurd hbp hn },
    hf.runState, hf.fatalInfo, hf.cancel, ?hold⟩
  case config => exact he.config.trans ⟨rfl, rfl, rfl⟩
  case output => exact he.output.trans ⟨_, rfl⟩
  case bpHits => exact he.bpHits.trans ⟨_, rfl⟩
  case hold =>
    intro a w' e
    have hp : (fetched s).phase = s.phase := pollIfStatus_phase ..
    rw [hp, h] at e
    cases e

theorem holdsAt_report {s : State} (hbp : HitsBreakpoint s s.pc) (w : Word) :
    HoldsAt s (reportBreakpoint s.pc w (fetched s)) s.pc w :=
  .inr ⟨hbp, rfl, List.getLast?_concat⟩

/-! ## The parts of a step in a wait on input or an endless string -/

/-- A part that is no instruction of its own, from a phase that is no bp_confirm hold. -/
theorem goesOn_of_ends {s t : State} (hp : ∀ a w, s.phase ≠ .bpConfirm a w) (h : Evolves s t) (k : Ends s t) :
    GoesOn s t where
  evolves := h.stepEvolves
  run := k.run
  fatalInfo := k.fatalInfo
  hold := fun a w e => by
    rcases k.phase with hs | hs
    · exact absurd (hs.symm.trans e) (hp a w)
    · exact absurd e (hs a w)

theorem evolves_putString_rest (unpack : Word → List Byte) (ph : Phase) (a : Word) (s : State) :
    Evolves s (putString unpack ph writeRest a s) :=
  evolves_writeRest _ (evolves_finishString _ _) _ s

theorem ends_putString_rest (unpack : Word → List Byte) (ph : Phase) (hph : ∀ a w, ph ≠ .bpConfirm a w) (a : Word)
    (s : State) : Ends s (putString unpack ph writeRest a s) :=
  ends_writeRest _ (ends_finishString _ _ hph) _ s

/-! ## The step -/

/-- Every step of a RUNNING block executes one word, or executes nothing and goes on or is cancelled. -/
theorem step_goes {s : State} (hrun : s.runState = .running) : Goes s (step s) := by
  cases hph : s.phase with
  | boundary =>
    by_cases hc : s.cancelAfter = some 0
    · exact .inl ⟨_, step_boundary_cancel s hrun hph hc, (Reaches.refl s).cancelled hc⟩
    · by_cases hbp : HitsBreakpoint s s.pc
      · rw [step_hit ⟨hrun, hph, hc⟩ hbp]
        exact (reaches_report hph hbp _).awaitConfirm_goes (executesWord_fetch hph) (holdsAt_report hbp _)
      · exact .inr ⟨_, _, ⟨executesWord_fetch hph, reaches_fetched hph, (pollIfStatus_phase ..).trans hph⟩,
          step_plain ⟨hrun, hph, hc⟩ hbp⟩
  | bpConfirm a w =>
    rw [step_of_running s hrun, cycle, hph]
    exact (Reaches.refl s).awaitConfirm_goes (.inr ⟨a, hph⟩) (.inl ⟨hph, rfl, rfl⟩)
  | getcRead =>
    rw [step_of_running s hrun, cycle, hph]
    exact .inl ⟨_, rfl, goesOn_of_ends (by simp [hph]) (evolves_awaitRead _ _ s evolves_finishGetc)
      (ends_awaitRead _ (by simp) _ s fun _ _ => .of_eq rfl rfl rfl)⟩
  | inRead =>
    rw [step_of_running s hrun, cycle, hph]
    exact .inl ⟨_, rfl, goesOn_of_ends (by simp [hph]) (evolves_awaitRead _ _ s evolves_finishIn)
      (ends_awaitRead _ (by simp) _ s fun _ _ => .of_eq rfl rfl rfl)⟩
  | puts a =>
    rw [step_of_running s hrun, cycle, hph]
    exact .inl ⟨_, rfl, goesOn_of_ends (by simp [hph]) (evolves_putString_rest ..)
      (ends_putString_rest _ _ (by simp) ..)⟩
  | putsp a =>
    rw [step_of_running s hrun, cycle, hph]
    exact .inl ⟨_, rfl, goesOn_of_ends (by simp [hph]) (evolves_putString_rest ..)
      (ends_putString_rest _ _ (by simp) ..)⟩

/-- A step that answers a next state, by what it does. -/
theorem step_cases {s t : State} (h : step s = .next t) : s.runState = .running ∧
    (GoesOn s t ∨ ∃ w v, Executes s w v ∧ exec (decode w) v = .next t) := by
  have hrun := step_running_of_next s t h
  refine ⟨hrun, ?_⟩
  rcases step_goes hrun with ⟨t', ht, hw⟩ | ⟨w, v, hv, hstep⟩
  · obtain rfl : t' = t := by rw [ht] at h; cases h; rfl
    exact .inl hw
  · exact .inr ⟨w, v, hv, hstep ▸ h⟩

theorem step_evolves {s t : State} (h : step s = .next t) : StepEvolves s t := by
  obtain ⟨-, hw | ⟨w, v, hv, hexec⟩⟩ := step_cases h
  · exact hw.evolves
  · exact hv.reaches.evolves.trans_evolves (exec_evolves _ v t hexec)

/-! ## How a step ends -/

/-- An execution whose instruction goes on makes a step that goes on. -/
theorem Executes.goesOn {s v t : State} {w : Word} (hv : Executes s w v) (h : Evolves v t) (k : Ends v t) :
    GoesOn s t where
  evolves := hv.reaches.evolves.trans_evolves h
  run := k.run.imp (fun hr => hr.trans hv.reaches.runState) fun ⟨hr, hc⟩ => ⟨hr, hv.reaches.cancel hc⟩
  fatalInfo := k.fatalInfo.trans hv.reaches.fatalInfo
  hold := fun a w' e => by
    rcases k.phase with hp | hp
    · rw [hp, hv.phase] at e
      cases e
    · exact absurd e (hp a w')

/-- Decoding loses no bit where none is ignored; for RTI and RES, the word they record is the word executed (R202). -/
theorem eq_encode_of_decode {w : Word} {i : Instr} (h : decode w = i) (hi : i.ignoredBits = 0x0000#16) :
    w = encode i := by
  have hw := encodeDecodeKeepsNamedBits w
  rw [h, hi] at hw
  exact (eq_of_agreeOn_all hw).symm

/-- No word decodes to TRAP with a service's vector. -/
theorem decode_ne_trap_halt (w : Word) : decode w ≠ .trap 0x25#8 := by
  intro h
  have hwf := decode_wellFormed w
  rw [h] at hwf
  cases hwf

/-- The three ways a step ends: the run goes on or is cancelled, HALT ends it, or RTI or RES does. -/
inductive StepEnds (s t : State) : Prop where
  | goesOn (h : GoesOn s t)
  | halts (w : Word) (hw : ExecutesWord s w) (hi : decode w = .halt) (hrun : t.runState = .halted)
      (hf : t.fatalInfo = s.fatalInfo) (hp : t.phase = .boundary)
  | fatal (w : Word) (v : State) (cause : FatalCause) (hv : Executes s w v) (hop : opcodeField w = cause.opcode.code)
      (ht : t = raiseFatal { cause := cause, addr := v.pc - 1#16, word := w } v)

theorem step_ends {s t : State} (h : step s = .next t) : StepEnds s t := by
  obtain ⟨-, hgo | ⟨w, v, hv, hexec⟩⟩ := step_cases h
  · exact .goesOn hgo
  · cases exec_ends _ v t hexec with
    | ends hends => exact .goesOn (hv.goesOn (exec_evolves _ v t hexec) hends)
    | halt hi hr hf hp =>
      exact .halts w hv.word (hi.resolve_right (decode_ne_trap_halt w)) hr (hf.trans hv.reaches.fatalInfo)
        (hp.trans hv.phase)
    | rti low hi ht =>
      have hword : w = rtiWord low := eq_encode_of_decode hi rfl
      exact .fatal w v .rti hv (hword ▸ opcodeField_format12 .rti low) (hword ▸ ht)
    | res low hi ht =>
      have hword : w = resWord low := eq_encode_of_decode hi rfl
      exact .fatal w v .res hv (hword ▸ opcodeField_format12 .res low) (hword ▸ ht)

/-! ## The obligations that speak of every step -/

/-- Settles O56: the streams' part of what every step keeps. -/
theorem outputGrowsAndInputIsConsumed : Obligations.OutputGrowsAndInputIsConsumed := by
  unfold Obligations.OutputGrowsAndInputIsConsumed
  intro s t h
  have e := step_evolves h
  exact ⟨e.output, e.polls, e.reads, e.confirms, e.draw, e.bpHits, e.no_hit⟩

/-- Settles O57: the configuration's part of what every step keeps. -/
theorem configurationIsNeverWritten : Obligations.ConfigurationIsNeverWritten := by
  unfold Obligations.ConfigurationIsNeverWritten
  exact fun s t h => (step_evolves h).config

/-- Settles O53: the three ways a step ends leave RunState as it was or CANCELLED, HALTED, and FATAL. -/
theorem runStateTransitions : Obligations.RunStateTransitions := by
  unfold Obligations.RunStateTransitions
  refine ⟨rfl, fun s t h => ⟨step_running_of_next s t h, ?_⟩⟩
  have hrun := step_running_of_next s t h
  cases step_ends h with
  | goesOn hgo =>
    rcases hgo.run with hr | ⟨hr, hc⟩
    · simp [hr, hrun]
    · simp [hr, hc]
  | halts w hw hi hr hf hp => simpa [hr] using ⟨w, hw, hi⟩
  | fatal w v cause hv hop ht =>
    have hcause : (cause = .rti ∧ opcodeField w = 0x8#4) ∨ (cause = .res ∧ opcodeField w = 0xD#4) := by
      cases cause
      · exact .inl ⟨rfl, hop⟩
      · exact .inr ⟨rfl, hop⟩
    rw [ht]
    exact ⟨nofun, fun _ => ⟨w, _, hv.word, rfl, rfl, hcause⟩, nofun⟩

/-- Settles O54: a RUNNING block's step goes on or is one execution, and `exec` is total but for the refusal. -/
theorem runningBlockAlwaysSteps : Obligations.RunningBlockAlwaysSteps := by
  unfold Obligations.RunningBlockAlwaysSteps
  refine ⟨fun s hrun => ?_, fun s hrun => ?_⟩
  · rcases step_goes hrun with ⟨t, ht, -⟩ | ⟨w, v, hv, hstep⟩
    · exact .inl ⟨t, ht⟩
    · rw [hstep]
      rcases exec_total (decode w) v with hnext | ⟨hpol, vec, hi, href⟩
      · exact .inl hnext
      · exact .inr ⟨hv.reaches.evolves.config.params ▸ hpol, w, vec, hv.word, hi, href⟩
  · unfold step
    cases hr : s.runState with
    | running => exact absurd hr hrun
    | halted | fatal | cancelled => rfl

/-! ## The invariant -/

/-- FatalInfo is empty while the block runs (R30). -/
theorem State.Inv.fatalInfo_of_ne {s : State} (h : s.Inv) (hr : s.runState ≠ .fatal) : s.fatalInfo = none := by
  have hsome : ¬ s.fatalInfo.isSome = true := fun e => hr (h.fatal_iff.mp e)
  simpa using hsome

/-- What a hold rests on is what the invariant says of it (R219). -/
theorem HoldsAt.facts {s t : State} {a w : Word} (h : HoldsAt s t a w) (hs : s.Inv) (hc : SameConfig s t) :
    t.debugEnabled = true ∧ a ∈ t.breakpoints ∧ t.pc = a + 1#16 ∧ t.bpHits.getLast? = some (a, w) := by
  rw [hc.debugEnabled, hc.breakpoints]
  rcases h with ⟨hph, hpc, hhits⟩ | ⟨hbp, hpc, hlast⟩
  · rw [hpc, hhits]
    exact hs.bp_hold a w hph
  · exact ⟨hbp.1, hbp.2, hpc, hlast⟩

/-- The invariant's facts on FatalInfo, in a state that is not FATAL and has none. -/
theorem fatal_facts_of_none {t : State} (hr : t.runState ≠ .fatal) (hf : t.fatalInfo = none) :
    (t.fatalInfo.isSome = true ↔ t.runState = .fatal) ∧
    ∀ f, t.fatalInfo = some f → t.pc = f.addr + 1#16 ∧ opcodeField f.word = f.cause.opcode.code := by
  rw [hf]
  exact ⟨iff_of_false Bool.false_ne_true hr, nofun⟩

/-- Settles O58. Memory and the parameters are kept by every step; a step that goes on keeps FatalInfo empty and holds
only where it has just signalled or held before; HALT leaves no hold; RTI and RES record the word that was executed, one
before PC. -/
theorem stepKeepsTheInvariant : Obligations.StepKeepsTheInvariant := by
  unfold Obligations.StepKeepsTheInvariant
  intro s t hs h
  have hrun := step_running_of_next s t h
  have hnone := hs.fatalInfo_of_ne (by rw [hrun]; nofun)
  have he := step_evolves h
  have hwf := he.wf hs.mem_wf
  have hkb : t.params.kbsrAddr ≠ t.params.kbdrAddr := he.config.params ▸ hs.kbsr_ne_kbdr
  cases step_ends h with
  | goesOn hgo =>
    have hend : t.runState = .running ∨ t.runState = .cancelled := hgo.run.imp (·.trans hrun) (·.1)
    obtain ⟨hiff, hrec⟩ := fatal_facts_of_none (by rcases hend with hr | hr <;> simp [hr]) (hgo.fatalInfo.trans hnone)
    exact ⟨hwf, hkb, hiff, hrec, fun a w e => (hgo.hold a w e).facts hs he.config, fun _ => hend⟩
  | halts w hw hi hr hf hp =>
    obtain ⟨hiff, hrec⟩ := fatal_facts_of_none (by simp [hr]) (hf.trans hnone)
    exact ⟨hwf, hkb, hiff, hrec, fun a w e => (by rw [hp] at e; cases e), fun hne => absurd hp hne⟩
  | fatal w v cause hv hop ht =>
    subst ht
    refine ⟨hwf, hkb, iff_of_true rfl rfl, fun f hf => ?record, fun a w e => ?hold, fun hne => absurd hv.phase hne⟩
    case record =>
      cases hf
      exact ⟨(BitVec.sub_add_cancel ..).symm, hop⟩
    case hold =>
      rw [raiseFatal_phase, hv.phase] at e
      cases e

end Sys2Proof.Machine
end

section
/-! Single steps at a boundary, at a breakpoint and under a cancel (70_reset_and_hazards.md R243, 20_memory.md R56,
60_exceptions.md R213, R219). -/

namespace Sys2Proof.Machine

/-! ## At a boundary -/

/-- Settles O32: with no breakpoint the fetch is run at once, and away from KBSR_ADDR it reads the stored word. -/
theorem stepRunsTheDecodedInstruction : Obligations.StepRunsTheDecodedInstruction := by
  unfold Obligations.StepRunsTheDecodedInstruction
  refine fun s h hbp => ⟨⟨_, _, readAt_memRead s.pc (passed s), step_plain h hbp⟩, fun i _ hpc hi => ?_⟩
  have hread : memRead s.pc (passed s) = (s.word s.pc, passed s) := memRead_of_ne (s := passed s) hpc
  rw [step_plain h hbp, hread, ← hi]
  rfl

/-- Settles O33: the store leaves the block at the same boundary, with its word where the next fetch reads. -/
theorem storeIsSeenByTheNextFetch : Obligations.StoreIsSeenByTheNextFetch := by
  unfold Obligations.StoreIsSeenByTheNextFetch
  intro sr s t h hbp hpc ht
  have haddr : s.pc + signedWord 0#9 = s.pc := BitVec.add_zero s.pc
  rw [exec_st, haddr] at ht
  cases ht
  obtain ⟨-, hnext⟩ := stepRunsTheDecodedInstruction (s.memWrite s.pc (s.reg sr)) ⟨h.running, h.phase, h.noCancel⟩ hbp
  have hword : (s.memWrite s.pc (s.reg sr)).word s.pc = s.reg sr := s.memWrite_word_self s.pc (s.reg sr)
  exact hnext _ (decode_wellFormed _) hpc (congrArg decode hword)

/-! ## Changes that a poll does not see -/

/-- A change of fields that a poll neither reads nor writes. -/
structure Unpolled (f : State → State) : Prop where
  params : ∀ s, (f s).params = s.params
  word : ∀ s a, (f s).word a = s.word a
  polls : ∀ s, (f s).polls = s.polls
  pollDraw : ∀ s, (f s).pollDraw = s.pollDraw
  memWrite : ∀ s a v, (f s).memWrite a v = f (s.memWrite a v)
  setPolls : ∀ s p d, { f s with polls := p, pollDraw := d } = f { s with polls := p, pollDraw := d }

theorem Unpolled.inPoll {f : State → State} (h : Unpolled f) (s : State) :
    inPoll (f s) = ((inPoll s).1, f (inPoll s).2) := by
  have hrest := h.setPolls s
  unfold Machine.inPoll
  rw [h.polls, h.pollDraw]
  cases hp : s.polls with
  | nil =>
    have hdrawn := hrest [] (s.pollDraw + 1)
    simp_all
  | cons r rs =>
    have hgiven := hrest rs s.pollDraw
    simp_all

/-- Such a change may as well come after a read. -/
theorem Unpolled.memRead {f : State → State} (h : Unpolled f) (a : Word) (s : State) :
    memRead a (f s) = ((memRead a s).1, f (memRead a s).2) := by
  have hresult : ∀ (t : State) (r : Option Byte), (f t).pollResult r = f (t.pollResult r) := by
    intro t r
    cases r <;> simp only [State.pollResult, h.params, h.memWrite]
  have hpoll : keyboardPoll (f s) = f (keyboardPoll s) := by
    unfold keyboardPoll
    rw [h.inPoll, hresult]
  have hstatus : pollIfStatus a (f s) = f (pollIfStatus a s) := by
    unfold pollIfStatus
    rw [h.params, hpoll]
    split <;> rfl
  exact Prod.ext ((congrArg (·.word a) hstatus).trans (h.word _ a)) hstatus

def State.withCancel (c : Option Nat) (s : State) : State := { s with cancelAfter := c }

theorem unpolled_withCancel (c : Option Nat) : Unpolled (State.withCancel c) :=
  ⟨fun _ => rfl, fun _ _ => rfl, fun _ => rfl, fun _ => rfl, fun _ _ _ => rfl, fun _ _ _ => rfl⟩

theorem State.withCancel_self {s : State} {c : Option Nat} (h : s.cancelAfter = c) : s.withCancel c = s := by
  subst h
  rfl

/-! ## At a breakpoint -/

/-- The word the fetch at PC reads. -/
def fetchWord (s : State) : Word := (memRead s.pc s).1

/-- The state at the wait of a breakpoint: the fetch done, the hit signalled, the diagnostic written (D29). -/
def hitState (s : State) : State :=
  { (memRead s.pc s).2 with
    pc := s.pc + 1#16, bpHits := s.bpHits ++ [(s.pc, fetchWord s)],
    output := s.output ++ Config.bpDiagnostic s.pc (fetchWord s) }

theorem hitState_phase (s : State) : (hitState s).phase = s.phase := pollIfStatus_phase ..

theorem hitState_runState (s : State) : (hitState s).runState = s.runState := pollIfStatus_runState ..

theorem hitState_confirms (s : State) : (hitState s).confirms = s.confirms := pollIfStatus_confirms ..

theorem hitState_cancelAfter (s : State) : (hitState s).cancelAfter = s.cancelAfter := pollIfStatus_cancelAfter ..

/-- A step at a breakpoint is the wait for bp_confirm, after the report. -/
theorem step_waits {s : State} (h : AtBoundary s) (hbp : HitsBreakpoint s s.pc) : step s =
    awaitConfirm s.pc (fetchWord s) (execWord (fetchWord s)) ((hitState s).withCancel (passPoint s.cancelAfter)) := by
  have hread : memRead s.pc (passed s) = (fetchWord s, (memRead s.pc s).2.withCancel (passPoint s.cancelAfter)) :=
    (unpolled_withCancel _).memRead s.pc s
  have hhits : (memRead s.pc s).2.bpHits = s.bpHits := pollIfStatus_bpHits ..
  have hout : (memRead s.pc s).2.output = s.output := pollIfStatus_output ..
  rw [step_hit h hbp, hread, reportBreakpoint_eq, hitState, ← hhits, ← hout]
  rfl

section Confirm
variable (a w : Word) (go : State → Result) {s : State}

theorem awaitConfirm_hold_of_none (hc : s.cancelAfter = none) (hn : s.confirms = 0) :
    awaitConfirm a w go s = .next { s with phase := .bpConfirm a w } := by
  rw [awaitConfirm, atCancelPoint_none _ _ s hc]
  simp only [hn]

theorem awaitConfirm_go_of_none {n : Nat} (hc : s.cancelAfter = none) (hn : s.confirms = n + 1) :
    awaitConfirm a w go s = go { s with confirms := n, phase := .boundary } := by
  rw [awaitConfirm, atCancelPoint_none _ _ s hc]
  simp only [hn]

end Confirm

theorem State.with_boundary {s : State} (n : Nat) (h : s.phase = .boundary) :
    { s with confirms := n, phase := .boundary } = { s with confirms := n } := by
  rw [← h]

/-- With the confirmation at hand the step executes the fetched word. -/
theorem step_confirmed {s : State} {n : Nat} (h : AtBoundary s) (hbp : HitsBreakpoint s s.pc)
    (hc : s.cancelAfter = none) (hn : s.confirms = n + 1) :
    step s = exec (decode (fetchWord s)) { hitState s with confirms := n } := by
  rw [step_waits h hbp, hc]
  have hcancel := (hitState_cancelAfter s).trans hc
  rw [State.withCancel_self (c := passPoint none) hcancel,
    awaitConfirm_go_of_none _ _ _ hcancel ((hitState_confirms s).trans hn),
    State.with_boundary n ((hitState_phase s).trans h.phase)]
  rfl

/-- A bp_confirm hold waits on. -/
theorem step_bpConfirm {s : State} {a w : Word} (hrun : s.runState = .running) (hph : s.phase = .bpConfirm a w) :
    step s = awaitConfirm a w (execWord w) s := by
  rw [step_of_running s hrun, cycle, hph]

/-- The hold waits unchanged, and with a confirmation executes the word it was entered with. -/
theorem bpConfirm_hold_steps {r : State} (a w : Word) (hrun : r.runState = .running) (hph : r.phase = .boundary)
    (hc : r.cancelAfter = none) (hn : r.confirms = 0) :
    step { r with phase := .bpConfirm a w } = .next { r with phase := .bpConfirm a w } ∧
    ∀ n, step { r with phase := .bpConfirm a w, confirms := n + 1 } = exec (decode w) { r with confirms := n } := by
  refine ⟨?waits, fun n => ?resumes⟩
  case waits =>
    exact (step_bpConfirm (s := { r with phase := .bpConfirm a w }) hrun rfl).trans
      (awaitConfirm_hold_of_none a w _ hc hn)
  case resumes =>
    have hgo := awaitConfirm_go_of_none (s := { r with phase := .bpConfirm a w, confirms := n + 1 }) a w (execWord w)
      hc rfl
    exact (step_bpConfirm (s := { r with phase := .bpConfirm a w, confirms := n + 1 }) hrun rfl).trans
      (hgo.trans (congrArg (exec (decode w)) (State.with_boundary n hph)))

/-- Settles O34: the wait for bp_confirm after the report, by the confirmations and the cancel. -/
theorem breakpointHoldsUntilConfirmed : Obligations.BreakpointHoldsUntilConfirmed := by
  unfold Obligations.BreakpointHoldsUntilConfirmed
  intro s hrun hph hbp
  refine ⟨fun hc => ?uncancelled, fun hc => ⟨fetchWord s, _, readAt_memRead s.pc s, ?cancelled⟩⟩
  case uncancelled =>
    have hb : AtBoundary s := ⟨hrun, hph, by simp [hc]⟩
    have hc' := (hitState_cancelAfter s).trans hc
    refine ⟨fetchWord s, _, readAt_memRead s.pc s, fun hn => ⟨_, ?signals, rfl, ?holds⟩,
      fun n hn => step_confirmed hb hbp hc hn⟩
    case signals =>
      rw [step_waits hb hbp, hc, State.withCancel_self (c := passPoint none) hc',
        awaitConfirm_hold_of_none _ _ _ hc' ((hitState_confirms s).trans hn)]
      rfl
    case holds =>
      exact bpConfirm_hold_steps (r := hitState s) s.pc (fetchWord s) ((hitState_runState s).trans hrun)
        ((hitState_phase s).trans hph) hc' ((hitState_confirms s).trans hn)
  case cancelled =>
    rw [step_waits ⟨hrun, hph, by simp [hc]⟩ hbp, hc]
    exact awaitConfirm_cancel _ _ _ _ rfl

/-! ## Under a cancel -/

/-- An endless string at a non-zero word has a next byte, and the cancel lands before it (R213). -/
theorem putString_cancel (unpack : Word → List Byte) (hunpack : ∀ w, unpack w ≠ []) (ph : Phase) {a : Word} {s : State}
    (ha : s.word a ≠ 0x0000#16) (hc : s.cancelAfter = some 0) :
    putString unpack ph writeRest a s = { s with runState := .cancelled, cancelAfter := none } := by
  have hwords : (stringWords s.mem memWords a).1 = s.word a :: (stringWords s.mem 65535 (a + 1)).1 := by
    rw [memWords, stringWords_succ s.mem 65535 a ha]
    rfl
  obtain ⟨b, bs, hb⟩ := List.exists_cons_of_ne_nil (hunpack (s.word a))
  unfold putString
  dsimp only
  rw [hwords, List.flatMap_cons, hb, List.cons_append, writeRest, atCancelPoint_zero _ _ s hc]
  rfl

/-- The state a cancel leaves (R213). -/
def cancelled (s : State) : State := { s with runState := .cancelled, cancelAfter := none }

/-- The first thing each phase of a RUNNING block does is a cancel point. -/
theorem step_cancelled {s : State} (hrun : s.runState = .running) (hc : s.cancelAfter = some 0)
    (hstring : ∀ a, s.phase = .puts a ∨ s.phase = .putsp a → s.word a ≠ 0x0000#16) : step s = .next (cancelled s) := by
  cases hph : s.phase with
  | boundary => exact step_boundary_cancel s hrun hph hc
  | bpConfirm a w => exact (step_bpConfirm hrun hph).trans (awaitConfirm_cancel a w _ s hc)
  | getcRead | inRead =>
    rw [step_of_running s hrun, cycle, hph]
    exact congrArg Host.Outcome.next (awaitRead_cancel _ _ s hc)
  | puts a =>
    rw [step_of_running s hrun, cycle, hph]
    have hunpack : ∀ w, putsUnpack w ≠ [] := fun w => List.cons_ne_nil _ _
    exact congrArg Host.Outcome.next (putString_cancel putsUnpack hunpack _ (hstring a (.inl hph)) hc)
  | putsp a =>
    rw [step_of_running s hrun, cycle, hph]
    have hunpack : ∀ w, putspUnpack w ≠ [] := fun w => by
      unfold putspUnpack
      split <;> exact List.cons_ne_nil _ _
    exact congrArg Host.Outcome.next (putString_cancel putspUnpack hunpack _ (hstring a (.inr hph)) hc)

/-- Settles O55: the cancel point of the phase ends the run, and writes nothing but RunState and its own count. -/
theorem cancelEndsTheRunAtOnce : Obligations.CancelEndsTheRunAtOnce := by
  unfold Obligations.CancelEndsTheRunAtOnce
  exact fun s hrun hc hstring => ⟨cancelled s, step_cancelled hrun hc hstring, rfl⟩

end Sys2Proof.Machine
end

section
/-! The debugger only observes (60_exceptions.md R219): no instruction reads DebugEnabled, the breakpoint signals or the
output written before it. -/

namespace Sys2Proof.Machine

/-- `s` with the debugger's fields set, and earlier output put before its own. -/
def observed (debug : Bool) (hits : List (Word × Word)) (out : List Byte) (s : State) : State :=
  { s with debugEnabled := debug, bpHits := hits, output := out ++ s.output }

/-- A change of the next state, if there is one. -/
def onNext (f : State → State) : Result → Result
  | .next t => .next (f t)
  | .fault r => .fault r
  | .refused r => .refused r

theorem onNext_eq_next {f : State → State} {r : Result} {t : State} (h : onNext f r = .next t) :
    ∃ u, r = .next u ∧ t = f u := by
  cases r with
  | next u => cases h; exact ⟨u, rfl, rfl⟩
  | fault | refused => cases h

section Observed
variable (debug : Bool) (hits : List (Word × Word)) (out : List Byte)

theorem unpolled_observed : Unpolled (observed debug hits out) :=
  ⟨fun _ => rfl, fun _ _ => rfl, fun _ => rfl, fun _ => rfl, fun _ _ _ => rfl, fun _ _ _ => rfl⟩

theorem memRead_observed (a : Word) (s : State) : memRead a (observed debug hits out s) =
    ((memRead a s).1, observed debug hits out (memRead a s).2) :=
  (unpolled_observed debug hits out).memRead a s

theorem loadFrom_observed (a : Word) (dr : RegNum) (s : State) :
    loadFrom a dr (observed debug hits out s) = observed debug hits out (loadFrom a dr s) := by
  unfold loadFrom
  rw [memRead_observed]
  rfl

theorem outWrite_observed (b : Byte) (s : State) :
    outWrite b (observed debug hits out s) = observed debug hits out (outWrite b s) := by
  simp [outWrite, observed]

theorem outBytes_observed (bs : List Byte) (s : State) :
    outBytes bs (observed debug hits out s) = observed debug hits out (outBytes bs s) := by
  simp [outBytes, observed]

theorem awaitRead_observed (ph : Phase) (fin : ReadAnswer → State → State)
    (hfin : ∀ r s, fin r (observed debug hits out s) = observed debug hits out (fin r s)) (s : State) :
    awaitRead ph fin (observed debug hits out s) = observed debug hits out (awaitRead ph fin s) := by
  by_cases hc : s.cancelAfter = some 0
  · rw [awaitRead_cancel _ _ s hc, awaitRead_cancel _ _ (observed debug hits out s) hc]
    rfl
  · cases hr : s.reads with
    | nil =>
      rw [awaitRead_hold _ _ s hc hr, awaitRead_hold _ _ (observed debug hits out s) hc hr]
      rfl
    | cons r rs =>
      rw [awaitRead_answer _ _ s r rs hc hr, awaitRead_answer _ _ (observed debug hits out s) r rs hc hr, ← hfin]
      rfl

theorem writeRest_observed (fin : State → State)
    (hfin : ∀ s, fin (observed debug hits out s) = observed debug hits out (fin s)) (bs : List Byte) :
    ∀ s, writeRest fin bs (observed debug hits out s) = observed debug hits out (writeRest fin bs s) := by
  induction bs with
  | nil => exact hfin
  | cons b bs ih =>
    intro s
    rw [writeRest, writeRest]
    by_cases hc : s.cancelAfter = some 0
    · rw [atCancelPoint_zero _ _ s hc, atCancelPoint_zero _ _ (observed debug hits out s) hc]
      rfl
    · rw [atCancelPoint_pass _ _ s hc, atCancelPoint_pass _ _ (observed debug hits out s) hc, ← ih,
        ← outWrite_observed]
      rfl

theorem writeString_observed (fin : State → State)
    (hfin : ∀ s, fin (observed debug hits out s) = observed debug hits out (fin s)) (bs : List Byte) (s : State) :
    writeString fin bs (observed debug hits out s) = observed debug hits out (writeString fin bs s) := by
  cases bs with
  | nil => exact hfin s
  | cons b bs => rw [writeString, writeString, ← writeRest_observed debug hits out fin hfin, outWrite_observed]

theorem putString_observed (unpack : Word → List Byte) (ph : Phase) (a : Word) (s : State) :
    putString unpack ph writeString a (observed debug hits out s) =
      observed debug hits out (putString unpack ph writeString a s) := by
  refine writeString_observed debug hits out _ (fun t => ?_) _ s
  split <;> rfl

theorem finishIn_observed (r : ReadAnswer) (s : State) :
    finishIn r (observed debug hits out s) = observed debug hits out (finishIn r s) := by
  simp [finishIn, observed, outWrite, State.setResult, State.setReg, State.updateFlags, State.reg]

theorem serviceGetc_observed (s : State) :
    serviceGetc (observed debug hits out s) = observed debug hits out (serviceGetc s) :=
  awaitRead_observed debug hits out .getcRead finishGetc (fun _ _ => rfl) s

theorem serviceIn_observed (s : State) :
    serviceIn (observed debug hits out s) = observed debug hits out (serviceIn s) := by
  rw [serviceIn, serviceIn, outFlush_eq, outFlush_eq,
    ← awaitRead_observed debug hits out _ _ (finishIn_observed debug hits out), ← outBytes_observed]
  rfl

theorem serviceUnknown_observed (v : Byte) (s : State) :
    serviceUnknown v (observed debug hits out s) = onNext (observed debug hits out) (serviceUnknown v s) := by
  have hpolicy : (observed debug hits out s).params = s.params := rfl
  unfold serviceUnknown
  rw [hpolicy]
  cases s.params.unknownTrapPolicy <;> rfl

theorem execTrap_observed (v : Byte) (s : State) :
    execTrap v (observed debug hits out s) = onNext (observed debug hits out) (execTrap v s) := by
  have hlink : enterTrap (observed debug hits out s) = observed debug hits out (enterTrap s) := rfl
  unfold execTrap
  rw [hlink]
  dsimp only
  split_ifs
  · exact congrArg Host.Outcome.next (serviceGetc_observed ..)
  · exact congrArg Host.Outcome.next (outWrite_observed ..)
  · exact congrArg Host.Outcome.next (putString_observed ..)
  · exact congrArg Host.Outcome.next (serviceIn_observed ..)
  · exact congrArg Host.Outcome.next (putString_observed ..)
  · have hnotice := outBytes_observed debug hits out s.params.haltNotice (enterTrap s)
    exact congrArg (fun t : State => Host.Outcome.next { t with runState := .halted }) hnotice
  · exact serviceUnknown_observed ..

/-- No instruction sees the debugger: with its fields changed every instruction does the same. -/
theorem exec_observed (i : Instr) (s : State) :
    exec i (observed debug hits out s) = onNext (observed debug hits out) (exec i s) := by
  cases i with
  | trap v => exact execTrap_observed ..
  | getc => exact execTrap_observed debug hits out 0x20#8 s
  | out => exact execTrap_observed debug hits out 0x21#8 s
  | puts => exact execTrap_observed debug hits out 0x22#8 s
  | in_ => exact execTrap_observed debug hits out 0x23#8 s
  | putsp => exact execTrap_observed debug hits out 0x24#8 s
  | halt => exact execTrap_observed debug hits out 0x25#8 s
  | br n z p off9 =>
    by_cases h : branchTaken n z p s.cond = true
    · rw [exec_br_taken off9 h, exec_br_taken (s := observed debug hits out s) off9 h]
      rfl
    · rw [exec_br_not_taken off9 h, exec_br_not_taken (s := observed debug hits out s) off9 h]
      rfl
  | ld dr off9 => exact congrArg Host.Outcome.next (loadFrom_observed ..)
  | ldr dr base off6 => exact congrArg Host.Outcome.next (loadFrom_observed ..)
  | ldi dr off9 =>
    have hpointer := memRead_observed debug hits out (s.pc + signedWord off9) s
    have hpc : (observed debug hits out s).pc = s.pc := rfl
    rw [exec_ldi, exec_ldi, hpc, hpointer, loadFrom_observed]
    rfl
  | sti sr off9 =>
    have hpointer := memRead_observed debug hits out (s.pc + signedWord off9) s
    have hpc : (observed debug hits out s).pc = s.pc := rfl
    rw [exec_sti, exec_sti, hpc, hpointer]
    rfl
  | _ => rfl

end Observed

/-! ## The two steps at a breakpoint -/

/-- The state after the fetch as neither step shows it: no output yet. -/
def bareFetch (s : State) : State := { (memRead s.pc s).2 with pc := s.pc + 1#16, output := [] }

def State.withoutDebugger (n : Nat) (s : State) : State := { s with debugEnabled := false, confirms := n }

def State.withConfirms (n : Nat) (s : State) : State := { s with confirms := n }

theorem unpolled_withoutDebugger (n : Nat) : Unpolled (State.withoutDebugger n) :=
  ⟨fun _ => rfl, fun _ _ => rfl, fun _ => rfl, fun _ => rfl, fun _ _ _ => rfl, fun _ _ _ => rfl⟩

theorem passed_of_none {s : State} (h : s.cancelAfter = none) : passed s = s :=
  State.withCancel_self (c := passPoint s.cancelAfter) (by rw [h]; rfl)

theorem fetched_withoutDebugger_eq_observed (n : Nat) (s : State) :
    ((memRead s.pc s).2.withoutDebugger n).setPc (s.pc + 1#16) =
      observed false s.bpHits s.output ((bareFetch s).withConfirms n) := by
  simp [State.withoutDebugger, State.withConfirms, State.setPc, observed, bareFetch]

/-- The step without the debugger executes the fetched word. -/
theorem step_withoutDebugger {s : State} (n : Nat) (h : AtBoundary s) (hc : s.cancelAfter = none) :
    step (s.withoutDebugger n) =
      exec (decode (fetchWord s)) (observed false s.bpHits s.output ((bareFetch s).withConfirms n)) := by
  have hb : AtBoundary (s.withoutDebugger n) := ⟨h.running, h.phase, h.noCancel⟩
  have hbp : ¬ HitsBreakpoint (s.withoutDebugger n) (s.withoutDebugger n).pc := fun e => Bool.false_ne_true e.1
  have hread : memRead s.pc (s.withoutDebugger n) = (fetchWord s, (memRead s.pc s).2.withoutDebugger n) :=
    (unpolled_withoutDebugger n).memRead s.pc s
  have hpc : (s.withoutDebugger n).pc = s.pc := rfl
  rw [step_plain hb hbp, passed_of_none (s := s.withoutDebugger n) hc, hpc, hread,
    fetched_withoutDebugger_eq_observed]
  rfl

theorem hitState_eq_observed {s : State} (hdebug : s.debugEnabled = true) : hitState s =
    observed true (s.bpHits ++ [(s.pc, fetchWord s)]) (s.output ++ Config.bpDiagnostic s.pc (fetchWord s))
      (bareFetch s) := by
  simp [hitState, observed, bareFetch, hdebug]

/-- Settles O35: both steps execute the fetched word, in states that differ only in what `exec_observed` says no
instruction sees. -/
theorem breakpointIsObservational : Obligations.BreakpointIsObservational := by
  unfold Obligations.BreakpointIsObservational
  intro s t0 n hrun hph hc hbp hn hstep
  have hb : AtBoundary s := ⟨hrun, hph, by simp [hc]⟩
  have hword := executesWord_fetch hph
  rw [passed_of_none hc] at hword
  have hplain := (step_withoutDebugger n hb hc).symm.trans hstep
  rw [exec_observed] at hplain
  obtain ⟨u, hu, rfl⟩ := onNext_eq_next hplain
  refine ⟨fetchWord s, u.output, _, hword, rfl, ?hit, rfl⟩
  case hit =>
    rw [step_confirmed hb hbp hc hn, hitState_eq_observed hbp.1]
    exact (exec_observed true _ _ _ ((bareFetch s).withConfirms n)).trans (congrArg (onNext _) hu)

end Sys2Proof.Machine
end

section
/-! The rows of 10_state.md R22, R24 and R26 and of 20_memory.md R48: what each instruction may write, proved once for
each part an instruction is made of. -/

namespace Sys2Proof.Machine

/-- From `s` to `t` nothing is written that the tables do not give the instruction `i`. -/
structure RowFrame (i : Instr) (s t : State) : Prop where
  params : t.params = s.params
  regs : ∀ r, r ∉ i.mayWrite → t.reg r = s.reg r
  cond : i.maySetFlags = false → t.cond = s.cond
  pc : i.mayJump = false → t.pc = s.pc
  word : i.stores = false → ∀ a, i.readsMemory = false ∨ (a ≠ s.params.kbsrAddr ∧ a ≠ s.params.kbdrAddr) →
    t.word a = s.word a

section Parts
variable {i : Instr}

theorem RowFrame.trans {s t u : State} (h : RowFrame i s t) (k : RowFrame i t u) : RowFrame i s u where
  params := k.params.trans h.params
  regs := fun r hr => (k.regs r hr).trans (h.regs r hr)
  cond := fun hi => (k.cond hi).trans (h.cond hi)
  pc := fun hi => (k.pc hi).trans (h.pc hi)
  word := fun hi a ha => (k.word hi a (h.params ▸ ha)).trans (h.word hi a ha)

/-- Updates of fields that are no part of the tables. -/
theorem rowFrame_of_eq {s t : State} (hparams : t.params = s.params) (hregs : t.regs = s.regs) (hcond : t.cond = s.cond)
    (hpc : t.pc = s.pc) (hmem : t.mem = s.mem) : RowFrame i s t where
  params := hparams
  regs := fun r _ => by rw [State.reg, hregs, State.reg]
  cond := fun _ => hcond
  pc := fun _ => hpc
  word := fun _ a _ => by rw [State.word, hmem, State.word]

theorem RowFrame.refl (s : State) : RowFrame i s s := rowFrame_of_eq rfl rfl rfl rfl rfl

theorem rowFrame_setResult {d : RegNum} (hd : d ∈ i.mayWrite) (hf : i.maySetFlags = true) (s : State) (v : Word) :
    RowFrame i s (s.setResult d v) where
  params := rfl
  regs := fun r hr => s.setResult_reg_ne d r v fun e => hr (e ▸ hd)
  cond := fun hi => absurd (hi.symm.trans hf) Bool.false_ne_true
  pc := fun _ => rfl
  word := fun _ _ _ => rfl

theorem rowFrame_link (h7 : 7 ∈ i.mayWrite) (s : State) : RowFrame i s s.link where
  params := rfl
  regs := fun r hr => s.link_reg_ne r fun e => hr (e ▸ h7)
  cond := fun _ => rfl
  pc := fun _ => rfl
  word := fun _ _ _ => rfl

theorem rowFrame_setPc (hj : i.mayJump = true) (s : State) (a : Word) : RowFrame i s (s.setPc a) where
  params := rfl
  regs := fun _ _ => rfl
  cond := fun _ => rfl
  pc := fun hi => absurd (hi.symm.trans hj) Bool.false_ne_true
  word := fun _ _ _ => rfl

theorem rowFrame_memWrite (hw : i.stores = true) (s : State) (a v : Word) : RowFrame i s (s.memWrite a v) where
  params := rfl
  regs := fun _ _ => rfl
  cond := fun _ => rfl
  pc := fun _ => rfl
  word := fun hi => absurd (hi.symm.trans hw) Bool.false_ne_true

theorem rowFrame_memRead (hm : i.readsMemory = true) (a : Word) (s : State) : RowFrame i s (memRead a s).2 where
  params := pollIfStatus_params a s
  regs := fun r _ => pollIfStatus_reg a s r
  cond := fun _ => pollIfStatus_cond a s
  pc := fun _ => pollIfStatus_pc a s
  word := fun _ b hb => by
    rcases hb with hi | ⟨hsr, hdr⟩
    · exact absurd (hi.symm.trans hm) Bool.false_ne_true
    · exact pollIfStatus_word_ne a b s hsr hdr

theorem rowFrame_loadFrom {d : RegNum} (hd : d ∈ i.mayWrite) (hf : i.maySetFlags = true) (hm : i.readsMemory = true)
    (a : Word) (s : State) : RowFrame i s (loadFrom a d s) :=
  (rowFrame_memRead hm a s).trans (rowFrame_setResult hd hf _ _)

/-! ## The services -/

theorem rowFrame_awaitRead (ph : Phase) (fin : ReadAnswer → State → State) (hfin : ∀ r u, RowFrame i u (fin r u))
    (s : State) : RowFrame i s (awaitRead ph fin s) := by
  by_cases hc : s.cancelAfter = some 0
  · rw [awaitRead_cancel _ _ s hc]
    exact rowFrame_of_eq rfl rfl rfl rfl rfl
  · cases hr : s.reads with
    | nil =>
      rw [awaitRead_hold _ _ s hc hr]
      exact rowFrame_of_eq rfl rfl rfl rfl rfl
    | cons r rs =>
      rw [awaitRead_answer _ _ s r rs hc hr]
      refine RowFrame.trans ?_ (hfin r _)
      exact rowFrame_of_eq rfl rfl rfl rfl rfl

theorem rowFrame_writeRest (fin : State → State) (hfin : ∀ u, RowFrame i u (fin u)) (bs : List Byte) :
    ∀ s, RowFrame i s (writeRest fin bs s) := by
  induction bs with
  | nil => exact hfin
  | cons b bs ih =>
    intro s
    rw [writeRest]
    by_cases hc : s.cancelAfter = some 0
    · rw [atCancelPoint_zero _ _ s hc]
      exact rowFrame_of_eq rfl rfl rfl rfl rfl
    · rw [atCancelPoint_pass _ _ s hc]
      refine RowFrame.trans ?_ (ih _)
      exact rowFrame_of_eq rfl rfl rfl rfl rfl

theorem rowFrame_putString (unpack : Word → List Byte) (ph : Phase) (a : Word) (s : State) :
    RowFrame i s (putString unpack ph writeString a s) := by
  have hfin : ∀ (b : Bool) (u : State),
      RowFrame i u (if b then outFlush { u with phase := .boundary } else { u with phase := ph }) := by
    intro b u
    split <;> exact rowFrame_of_eq rfl rfl rfl rfl rfl
  unfold putString
  dsimp only
  cases (stringWords s.mem memWords a).1.flatMap unpack with
  | nil => exact hfin _ s
  | cons b bs =>
    exact RowFrame.trans (t := outWrite b s) (rowFrame_of_eq rfl rfl rfl rfl rfl) (rowFrame_writeRest _ (hfin _) bs _)

theorem rowFrame_serviceGetc (h0 : 0 ∈ i.mayWrite) (hf : i.maySetFlags = true) (s : State) :
    RowFrame i s (serviceGetc s) :=
  rowFrame_awaitRead _ _ (fun _ u => rowFrame_setResult h0 hf u _) s

theorem rowFrame_serviceIn (h0 : 0 ∈ i.mayWrite) (hf : i.maySetFlags = true) (s : State) :
    RowFrame i s (serviceIn s) := by
  have hecho : ∀ b (u : State), RowFrame i u (outWrite b u) := fun _ _ => rowFrame_of_eq rfl rfl rfl rfl rfl
  have hfin : ∀ r u, RowFrame i u (finishIn r u) := fun r u => (hecho _ u).trans (rowFrame_setResult h0 hf _ _)
  have hprompt : RowFrame i s (outBytes s.params.inPrompt s) := rowFrame_of_eq rfl rfl rfl rfl rfl
  rw [serviceIn, outFlush_eq]
  exact hprompt.trans (rowFrame_awaitRead _ _ hfin _)

end Parts

theorem linkReg_mem_mayWrite_trap (v : Byte) : linkReg ∈ (Instr.trap v).mayWrite := by
  have hlist : (Instr.trap v).mayWrite = if v = 0x20#8 ∨ v = 0x23#8 then [7, 0] else [7] := rfl
  rw [hlist]
  split <;> exact List.mem_cons_self

/-- A service after the link, for TRAP with its vector or for the service's own instruction. -/
theorem rowFrame_trap {v : Byte} {s t : State} (h : execTrap v s = .next t) : RowFrame (.trap v) s t := by
  have hlink : RowFrame (.trap v) s (enterTrap s) := rowFrame_link (linkReg_mem_mayWrite_trap v) s
  rcases execTrap_cases v s t h with ⟨rfl, rfl⟩ | ⟨-, rfl⟩ | ⟨-, rfl⟩ | ⟨rfl, rfl⟩ | ⟨-, rfl⟩ | ⟨-, rfl⟩ | ⟨-, -, rfl⟩
  · exact hlink.trans (rowFrame_serviceGetc (by decide) rfl _)
  · exact hlink.trans (rowFrame_of_eq rfl rfl rfl rfl rfl)
  · exact hlink.trans (rowFrame_putString ..)
  · exact hlink.trans (rowFrame_serviceIn (by decide) rfl _)
  · exact hlink.trans (rowFrame_putString ..)
  · exact hlink.trans (rowFrame_of_eq rfl rfl rfl rfl rfl)
  · exact hlink

/-- Every instruction writes what the tables give it, and nothing else. -/
theorem exec_rowFrame {i : Instr} {s t : State} (h : exec i s = .next t) : RowFrame i s t := by
  cases i with
  | addReg dr _ _ | addImm dr _ _ | andReg dr _ _ | andImm dr _ _ | not dr _ | lea dr _ =>
    cases h
    exact rowFrame_setResult (List.mem_singleton_self dr) rfl _ _
  | br n z p off9 =>
    by_cases hb : branchTaken n z p s.cond = true
    · rw [exec_br_taken off9 hb] at h
      cases h
      exact rowFrame_setPc rfl _ _
    · rw [exec_br_not_taken off9 hb] at h
      cases h
      exact .refl s
  | jmp base =>
    cases h
    exact rowFrame_setPc rfl _ _
  | jsr _ | jsrr _ =>
    cases h
    exact (rowFrame_link (List.mem_singleton_self 7) s).trans (rowFrame_setPc rfl _ _)
  | ld dr _ | ldr dr _ _ =>
    cases h
    exact rowFrame_loadFrom (List.mem_singleton_self dr) rfl rfl _ s
  | ldi dr _ =>
    cases h
    exact (rowFrame_memRead rfl _ s).trans (rowFrame_loadFrom (List.mem_singleton_self dr) rfl rfl _ _)
  | st _ _ | str _ _ _ =>
    cases h
    exact rowFrame_memWrite rfl _ _ _
  | sti _ _ =>
    cases h
    exact (rowFrame_memRead rfl _ s).trans (rowFrame_memWrite rfl _ _ _)
  | rti _ | res _ =>
    cases h
    exact rowFrame_of_eq rfl rfl rfl rfl rfl
  | trap v => exact rowFrame_trap h
  | getc =>
    cases h
    exact (rowFrame_link (by decide) s).trans (rowFrame_serviceGetc (by decide) rfl _)
  | in_ =>
    cases h
    exact (rowFrame_link (by decide) s).trans (rowFrame_serviceIn (by decide) rfl _)
  | puts | putsp =>
    cases h
    exact (rowFrame_link (by decide) s).trans (rowFrame_putString ..)
  | out | halt =>
    cases h
    exact (rowFrame_link (by decide) s).trans (rowFrame_of_eq rfl rfl rfl rfl rfl)

/-- Settles O49: the registers' part of the row frame. -/
theorem onlyListedRegistersAreWritten : Obligations.OnlyListedRegistersAreWritten := by
  unfold Obligations.OnlyListedRegistersAreWritten
  exact fun i s t r h => (exec_rowFrame h).regs r

/-- Settles O50: COND's part of the row frame. -/
theorem onlyFlagSettersChangeCond : Obligations.OnlyFlagSettersChangeCond := by
  unfold Obligations.OnlyFlagSettersChangeCond
  exact fun i s t h => (exec_rowFrame h).cond

/-- Settles O51: PC's part of the row frame. -/
theorem onlyControlWritesPc : Obligations.OnlyControlWritesPc := by
  unfold Obligations.OnlyControlWritesPc
  exact fun i s t h => (exec_rowFrame h).pc

/-- Settles O52: memory's part of the row frame. -/
theorem onlyStoresWriteMemory : Obligations.OnlyStoresWriteMemory := by
  unfold Obligations.OnlyStoresWriteMemory
  exact fun i s t a h hi => (exec_rowFrame h).word hi a

end Sys2Proof.Machine
end

section
/-! TRAP (43_trap.md R170 to R177): its words, GETC and IN with their hold, PUTS and PUTSP, and the unknown vectors. -/

namespace Sys2Proof.Machine

/-! ## Dispatch -/

theorem trapVectorField_toNat (w : Word) : (trapVectorField w).toNat = bitsOf w 7 0 := by
  simp [trapVectorField, bitsOf]

theorem decode_trap_of_vector {w : Word} (h : w &&& 0xF000#16 = 0xF000#16) {v : Byte} (hv : bitsOf w 7 0 = v.toNat) :
    decode w = decodeTrap v := by
  rw [decode_trap_row h, BitVec.eq_of_toNat_eq ((trapVectorField_toNat w).trans hv)]

theorem isServiceVector_eq_false : ∀ v : Byte, v.toNat < 0x20 ∨ 0x25 < v.toNat → isServiceVector v = false := by
  decide

/-- Settles O46: the vector of a TRAP word picks the instruction, and `execTrap` the service by the same vectors. -/
theorem trapDispatchesByVector : Obligations.TrapDispatchesByVector := by
  unfold Obligations.TrapDispatchesByVector
  refine ⟨fun w h => ?words, fun s => ⟨rfl, rfl, rfl, rfl, rfl, rfl⟩⟩
  case words =>
    refine ⟨decode_trap_of_vector h (v := 0x20#8), decode_trap_of_vector h (v := 0x21#8),
      decode_trap_of_vector h (v := 0x22#8), decode_trap_of_vector h (v := 0x23#8),
      decode_trap_of_vector h (v := 0x24#8), decode_trap_of_vector h (v := 0x25#8), fun hv => ?other⟩
    case other =>
      rw [← trapVectorField_toNat] at hv
      rw [decode_trap_row h, decodeTrap_of_not_service _ (isServiceVector_eq_false _ hv), trapVectorField_eq_lowOf]

/-- A vector that selects no service is answered by the policy, after the link (R177). -/
theorem execTrap_unknown {v : Byte} (h : isServiceVector v = false) (s : State) :
    execTrap v s = serviceUnknown v (enterTrap s) := by
  have hne : ∀ u : Byte, isServiceVector u = true → v ≠ u := fun u hu e => by simp [← e, h] at hu
  unfold execTrap
  rw [if_neg (hne _ rfl), if_neg (hne _ rfl), if_neg (hne _ rfl), if_neg (hne _ rfl), if_neg (hne _ rfl),
    if_neg (hne _ rfl)]

/-- Settles O45: the policy alone decides, after the link. -/
theorem unknownTrapVectors : Obligations.UnknownTrapVectors := by
  unfold Obligations.UnknownTrapVectors
  intro v s hv
  have hexec : exec (.trap v) s = serviceUnknown v (enterTrap s) :=
    execTrap_unknown (isServiceVector_eq_false v hv) s
  rw [hexec, serviceUnknown, enterTrap_params]
  refine ⟨fun hp => ?noop, fun hp => ?refuse⟩
  case noop =>
    rw [hp]
    exact ⟨_, rfl, outputFrame_enterTrap_with s s.runState s.phase s.output s.cancelAfter, rfl, rfl, rfl, rfl⟩
  case refuse => rw [hp]

/-! ## GETC and IN -/

/-- What GETC and IN leave with an answer that stands for `v`, the output being `out` (R171, R174). -/
def readDone (s : State) (v : Word) (rest : List ReadAnswer) (out : List Byte) : State :=
  State.setResult
    { enterTrap s with
      reads := rest, phase := .boundary, output := out, cancelAfter := passPoint s.cancelAfter } 0 v

theorem trapFrame_readDone (s : State) (v : Word) (rest : List ReadAnswer) (out : List Byte) :
    TrapFrame s (readDone s v rest out) := by
  refine trapFrame_of_eq _ _ ?_ (fun r h0 h7 => ?_) rfl
  · exact (State.setResult_reg_ne _ 0 7 v (by decide)).trans (enterTrap_reg_seven s)
  · exact (State.setResult_reg_ne _ 0 r v h0).trans (enterTrap_reg_ne s r h7)

theorem readDone_reg_zero (s : State) (v : Word) (rest : List ReadAnswer) (out : List Byte) :
    (readDone s v rest out).reg 0 = v :=
  State.setResult_reg_self _ 0 v

theorem readDone_cond (s : State) (v : Word) (rest : List ReadAnswer) (out : List Byte) :
    CondMatches (readDone s v rest out).cond v := by
  rw [readDone, State.setResult_cond]
  exact condOf_matches v

section Reads
variable {s : State}

theorem exec_getc_answer {r : ReadAnswer} {rest : List ReadAnswer} (hc : s.cancelAfter ≠ some 0)
    (hr : s.reads = r :: rest) : exec .getc s = .next (readDone s (readValue s.params r) rest s.output) :=
  congrArg Host.Outcome.next (awaitRead_answer .getcRead finishGetc (enterTrap s) r rest hc hr)

theorem exec_getc_hold (hc : s.cancelAfter ≠ some 0) (hr : s.reads = []) : exec .getc s =
    .next { enterTrap s with cancelAfter := passPoint s.cancelAfter, phase := .getcRead } :=
  congrArg Host.Outcome.next (awaitRead_hold .getcRead finishGetc (enterTrap s) hc hr)

theorem exec_getc_cancel (hc : s.cancelAfter = some 0) : exec .getc s =
    .next { enterTrap s with runState := .cancelled, cancelAfter := none } :=
  congrArg Host.Outcome.next (awaitRead_cancel .getcRead finishGetc (enterTrap s) hc)

/-- The prompt, after the link (R174). -/
def prompted (s : State) : State := outBytes s.params.inPrompt (enterTrap s)

theorem exec_in_answer {r : ReadAnswer} {rest : List ReadAnswer} (hc : s.cancelAfter ≠ some 0)
    (hr : s.reads = r :: rest) : exec .in_ s = .next (readDone s (readValue s.params r) rest
      (s.output ++ s.params.inPrompt ++ [lowByte (readValue s.params r)])) :=
  congrArg Host.Outcome.next (awaitRead_answer .inRead finishIn (prompted s) r rest hc hr)

theorem exec_in_hold (hc : s.cancelAfter ≠ some 0) (hr : s.reads = []) : exec .in_ s =
    .next { prompted s with cancelAfter := passPoint s.cancelAfter, phase := .inRead } :=
  congrArg Host.Outcome.next (awaitRead_hold .inRead finishIn (prompted s) hc hr)

theorem exec_in_cancel (hc : s.cancelAfter = some 0) : exec .in_ s =
    .next { prompted s with runState := .cancelled, cancelAfter := none } :=
  congrArg Host.Outcome.next (awaitRead_cancel .inRead finishIn (prompted s) hc)

end Reads

/-- Settles O36: the three cases of the wait on InRead, after the link. -/
theorem getcReadsOneCharacter : Obligations.GetcReadsOneCharacter := by
  unfold Obligations.GetcReadsOneCharacter
  refine fun s => ⟨fun r rest hc hr => ?answer, fun hc hr => ?hold, fun hc => ?cancel⟩
  case answer =>
    refine ⟨_, exec_getc_answer hc hr, trapFrame_readDone .., ?_, ?_, rfl, rfl, rfl, rfl, rfl⟩
    · exact readDone_reg_zero .. ▸ readValue_gives ..
    · exact readDone_reg_zero .. ▸ readDone_cond ..
  case hold =>
    exact ⟨_, exec_getc_hold hc hr, outputFrame_enterTrap_with .., rfl, rfl, rfl, rfl⟩
  case cancel => exact ⟨_, exec_getc_cancel hc, outputFrame_enterTrap_with .., rfl, rfl, rfl⟩

/-- Settles O37: the prompt, and then the three cases of the wait on InRead. -/
theorem inPromptsReadsAndEchoes : Obligations.InPromptsReadsAndEchoes := by
  unfold Obligations.InPromptsReadsAndEchoes
  refine fun s => ⟨fun r rest hc hr => ?answer, fun hc hr => ?hold, fun hc => ?cancel⟩
  case answer =>
    refine ⟨_, exec_in_answer hc hr, trapFrame_readDone .., ?_, ?_, rfl, ?_, rfl, rfl, rfl⟩
    · exact readDone_reg_zero .. ▸ readValue_gives ..
    · exact readDone_reg_zero .. ▸ readDone_cond ..
    · rw [readDone_reg_zero, ← lowByte_eq]
      rfl
  case hold => exact ⟨_, exec_in_hold hc hr, outputFrame_enterTrap_with .., rfl, rfl, rfl, rfl⟩
  case cancel => exact ⟨_, exec_in_cancel hc, outputFrame_enterTrap_with .., rfl, rfl, rfl⟩

/-- The step of a block that holds in the phase `ph` is the wait again. -/
def StepsByAwait (ph : Phase) (fin : ReadAnswer → State → State) : Prop :=
  ∀ t : State, t.runState = .running → t.phase = ph → step t = .next (awaitRead ph fin t)

theorem stepsByAwait_getc : StepsByAwait .getcRead finishGetc := fun t hrun hph => by
  rw [step_of_running t hrun, cycle, hph]

theorem stepsByAwait_in : StepsByAwait .inRead finishIn := fun t hrun hph => by
  rw [step_of_running t hrun, cycle, hph]

section NoCancel
variable (ph : Phase) (fin : ReadAnswer → State → State) {u : State} (hc : u.cancelAfter = none)
include hc

theorem awaitRead_hold_of_none (hr : u.reads = []) : awaitRead ph fin u = { u with phase := ph } := by
  rw [awaitRead, atCancelPoint_none _ _ u hc]
  simp only [hr]

theorem awaitRead_answer_of_none {r : ReadAnswer} {rest : List ReadAnswer} (hr : u.reads = r :: rest) :
    awaitRead ph fin u = fin r { u with reads := rest, phase := .boundary } := by
  rw [awaitRead, atCancelPoint_none _ _ u hc]
  simp only [hr]

end NoCancel

/-- A wait with no answer holds; it then stands still, and with an answer it goes on as it would have from the start. -/
theorem awaitRead_held_steps {ph : Phase} {fin : ReadAnswer → State → State} (hstep : StepsByAwait ph fin) {u : State}
    (hrun : u.runState = .running) (hc : u.cancelAfter = none) (hr : u.reads = []) :
    step (awaitRead ph fin u) = .next (awaitRead ph fin u) ∧
    ∀ r rest, step { awaitRead ph fin u with reads := r :: rest } =
      .next (awaitRead ph fin { u with reads := r :: rest }) := by
  rw [awaitRead_hold_of_none ph fin hc hr]
  refine ⟨?still, fun r rest => ?resumed⟩
  case still =>
    rw [hstep { u with phase := ph } hrun rfl, awaitRead_hold_of_none ph fin (u := { u with phase := ph }) hc hr]
  case resumed =>
    rw [hstep { u with phase := ph, reads := r :: rest } hrun rfl,
      awaitRead_answer_of_none ph fin (u := { u with phase := ph, reads := r :: rest }) hc rfl,
      awaitRead_answer_of_none ph fin (u := { u with reads := r :: rest }) hc rfl]

/-- Settles O38: GETC and IN are the wait on InRead, and so is the step of the block that holds in one of them. -/
theorem heldReadWaitsAndResumes : Obligations.HeldReadWaitsAndResumes := by
  unfold Obligations.HeldReadWaitsAndResumes
  intro i s t hi hrun hc hr h
  rcases hi with rfl | rfl
  · cases h
    exact awaitRead_held_steps stepsByAwait_getc (u := enterTrap s) hrun hc hr
  · cases h
    exact awaitRead_held_steps stepsByAwait_in (u := prompted s) hrun hc hr

/-! ## PUTS and PUTSP -/

/-- How a string service ends at the zero word. -/
def endString (s : State) : State := { s with phase := .boundary }

/-- A string service whose string ends writes its bytes, and then it is done. -/
theorem putString_of_stringAt (unpack : Word → List Byte) (ph : Phase) {s : State} {ws : List Word} {a : Word}
    (h : StringAt s a ws) : putString unpack ph writeString a s = writeString endString (ws.flatMap unpack) s := by
  unfold putString
  rw [stringWords_of_stringAt s ws memWords a (stringAt_length_lt s a ws h) h]
  rfl

section Strings
variable {s : State} {ws : List Word}

/-- The link leaves the string at R0 where it was. -/
theorem stringAt_enterTrap (h : StringAt s (s.reg 0) ws) : StringAt (enterTrap s) ((enterTrap s).reg 0) ws := by
  rw [enterTrap_reg_zero]
  exact h

theorem exec_puts (h : StringAt s (s.reg 0) ws) :
    exec .puts s = .next (writeString endString (putsBytes ws) (enterTrap s)) := by
  rw [← flatMap_putsUnpack, ← putString_of_stringAt putsUnpack (.puts ((enterTrap s).reg 0)) (stringAt_enterTrap h)]
  rfl

theorem exec_putsp (h : StringAt s (s.reg 0) ws) :
    exec .putsp s = .next (writeString endString (putspBytes ws) (enterTrap s)) := by
  rw [← flatMap_putspUnpack, ← putString_of_stringAt putspUnpack (.putsp ((enterTrap s).reg 0)) (stringAt_enterTrap h)]
  rfl

variable {i : Instr} {bs : List Byte} (h : exec i s = .next (writeString endString bs (enterTrap s)))
include h

theorem completes_of_writeString (hc : ∀ n, s.cancelAfter = some n → bs.length - 1 ≤ n) :
    ∃ t, exec i s = .next t ∧ OutputFrame s t ∧ t.output = s.output ++ bs ∧ t.runState = s.runState ∧
      t.phase = .boundary ∧ t.cancelAfter = s.cancelAfter.map (· - (bs.length - 1)) := by
  rw [writeString_all endString bs (enterTrap s) hc] at h
  exact ⟨_, h, outputFrame_enterTrap_with .., rfl, rfl, rfl, rfl⟩

theorem cancelled_of_writeString {k : Nat} (hk : s.cancelAfter = some k) (hlt : k + 1 < bs.length) :
    ∃ t, exec i s = .next t ∧ OutputFrame s t ∧ t.output = s.output ++ bs.take (k + 1) ∧ t.runState = .cancelled := by
  rw [writeString_cancel endString bs (enterTrap s) k hk hlt] at h
  exact ⟨_, h, outputFrame_enterTrap_with .., rfl, rfl⟩

end Strings

theorem putsBytes_length (ws : List Word) : (putsBytes ws).length = ws.length := List.length_map ..

/-- Settles O40: one byte for each word of the string, and no cancel between two of them. -/
theorem putsWritesTheString : Obligations.PutsWritesTheString := by
  unfold Obligations.PutsWritesTheString
  intro s ws h hc
  rw [← putsBytes_length ws] at hc ⊢
  exact completes_of_writeString (exec_puts h) hc

/-- Settles O41: the bytes of the packed string, and no cancel between two of them. -/
theorem putspWritesThePackedString : Obligations.PutspWritesThePackedString := by
  unfold Obligations.PutspWritesThePackedString
  exact fun s ws h hc => completes_of_writeString (exec_putsp h) hc

/-- Settles O42: a cancel that lands among the bytes of either service. -/
theorem cancelLandsBetweenStringBytes : Obligations.CancelLandsBetweenStringBytes := by
  unfold Obligations.CancelLandsBetweenStringBytes
  refine fun s ws k h hk => ⟨fun hlt => ?puts, fun hlt => cancelled_of_writeString (exec_putsp h) hk hlt⟩
  case puts =>
    rw [← putsBytes_length ws] at hlt
    exact cancelled_of_writeString (exec_puts h) hk hlt

/-! ## A memory with no zero word -/

/-- PUTS stands at `a` in a memory with no zero word, `n` bytes written, and no cancel is coming. -/
structure InEndlessPuts (a : Word) (n : Nat) (s : State) : Prop where
  running : s.runState = .running
  noCancel : s.cancelAfter = none
  phase : s.phase = .puts a
  noZero : ∀ b, s.word b ≠ 0x0000#16
  written : s.output.length = n

/-- One lap: every word of memory gives a byte, and the service goes on where it began. -/
theorem putString_lap {write : (State → State) → List Byte → State → State} {a : Word} {s : State}
    (hwrite : ∀ fin bs, write fin bs s = fin { s with output := s.output ++ bs })
    (hrun : s.runState = .running) (hc : s.cancelAfter = none) (hz : ∀ b, s.word b ≠ 0x0000#16) :
    InEndlessPuts a (s.output.length + 65536) (putString putsUnpack (.puts a) write a s) := by
  obtain ⟨hend, hlen⟩ := stringWords_endless s.mem hz memWords a
  unfold putString
  dsimp only
  rw [hwrite, hend, flatMap_putsUnpack]
  refine ⟨hrun, hc, rfl, hz, ?_⟩
  exact List.length_append.trans (by rw [putsBytes_length, hlen, memWords])

theorem InEndlessPuts.step {a : Word} {n : Nat} {s : State} (h : InEndlessPuts a n s) :
    ∃ t, Machine.step s = .next t ∧ InEndlessPuts a (n + 65536) t := by
  have hwrite : ∀ fin bs, writeRest fin bs s = fin { s with output := s.output ++ bs } := by
    intro fin bs
    rw [writeRest_all fin bs s (by simp [h.noCancel])]
    simp [h.noCancel, passPoints]
  refine ⟨_, ?_, h.written ▸ putString_lap (a := a) hwrite h.running h.noCancel h.noZero⟩
  rw [step_of_running s h.running, cycle, h.phase]

/-- Any number of laps, by induction on it. -/
theorem InEndlessPuts.run {a : Word} (k : Nat) : ∀ {n : Nat} {s : State}, InEndlessPuts a n s →
    ∃ u, Host.Core.run Sys2Proof.core k s = .next u ∧ InEndlessPuts a (n + 65536 * k) u := by
  induction k with
  | zero => exact fun h => ⟨_, rfl, h⟩
  | succ k ih =>
    intro n s h
    obtain ⟨t, hst, ht⟩ := h.step
    obtain ⟨u, hu, hend⟩ := ih ht
    refine ⟨u, (run_succ k s t hst).trans hu, ?_⟩
    rwa [Nat.mul_succ, Nat.add_comm (65536 * k), ← Nat.add_assoc]

/-- Settles O43: PUTS itself is the first lap, and every further step is one more. -/
theorem putsWithoutZeroWordNeverEnds : Obligations.PutsWithoutZeroWordNeverEnds := by
  unfold Obligations.PutsWithoutZeroWordNeverEnds
  intro s hrun hc hz
  have hwrite : ∀ fin bs, writeString fin bs (enterTrap s) =
      fin { enterTrap s with output := (enterTrap s).output ++ bs } := by
    intro fin bs
    rw [writeString_all fin bs (enterTrap s) (by simp [hc])]
    simp [hc, passPoints]
  have hlap := putString_lap (a := (enterTrap s).reg 0) hwrite hrun hc hz
  refine ⟨_, rfl, fun n => ?_⟩
  obtain ⟨u, hu, hend⟩ := hlap.run n
  refine ⟨u, hu, hend.running, enterTrap_reg_zero s ▸ hend.phase, ?_⟩
  rw [hend.written, enterTrap_output]
  omega

end Sys2Proof.Machine
end
